-- ==== Sys2Proof/Word.lean ====
section
/-! DEFINITION. The word and the byte: the two widths of the datapath (spec/00_scope.md R7, R12). -/

namespace Sys2Proof

/-- The cipher's word: an unsigned 32-bit integer (R7 `W`, R12). -/
abbrev Word := BitVec 32

/-- One byte of memory (R45). -/
abbrev Byte := BitVec 8

end Sys2Proof
end

