-- ==== Sys2Proof/Config.lean ====
section
/-! DEFINITION. The hardware's open parameters (spec/00_scope.md R9, R10; spec/92_eei_decisions.md D3, D4, D31), and the
free value for what a reset leaves of a running command's data region (spec/93_implementation_defined.md U7). -/

namespace Sys2Proof

/-- BYTE_ORDER (R10): how the four bytes of a word lie in memory. Constant for the life of the hardware. -/
inductive ByteOrder where
  | little
  | big
  deriving DecidableEq, Repr

/-- The parameters of one piece of hardware. No step writes them; every statement holds for every value of them
(assumption log 1). -/
structure Config where
  /-- ADDR_W (R9): the width in bits of a byte address and of a byte length. -/
  addrW : Nat
  /-- BYTE_ORDER (R10). -/
  byteOrder : ByteOrder
  /-- KEY_XOR_Z (D31): `false` is the mixer of R89; `true` is the published form of GK1, which the spec lets a model
  carry for comparison (assumption log 20). -/
  keyXorZ : Bool
  deriving DecidableEq, Repr

/-- R9: `ADDR_W >= 4`. -/
abbrev Config.WellFormed (cfg : Config) : Prop := 4 ≤ cfg.addrW

/-- The number of addresses, `2^ADDR_W` (R45). -/
def Config.space (cfg : Config) : Nat := 2 ^ cfg.addrW

/-- The packed descriptor's width in bits, `4*ADDR_W + 1` (R67). -/
def Config.descriptorBits (cfg : Config) : Nat := 4 * cfg.addrW + 1

/-- The parameters the spec's worked examples use where they name any: `ADDR_W = 32`, little, the mixer of R89
(DESIGN CHOICE for `State.reset`, assumption logs 1 and 20). -/
def Config.examples : Config := { addrW := 32, byteOrder := .little, keyXorZ := false }

/-- A free value (assumption log 8): the bytes that a reset during BUSY leaves in the data region, which R168 and U7
leave open. Nothing is known of it. -/
opaque Config.freeByte : Nat → Byte

end Sys2Proof
end

