-- ==== Sys2Proof/Syntax.lean ====
section
/-! DEFINITION. The command set: one constructor per row of spec/opcode_table.json (spec/30_encoding.md R67, R76, R80). -/

namespace Sys2Proof

/-- A command, its operands in the order of the assembler form `ENCRYPT data_addr, data_len, key_addr, key_len` (R80).
All four are unsigned numbers, used as they stand (R68, R70 to R73). -/
inductive Instr where
  /-- ENCRYPT (R97). -/
  | encrypt (dataAddr dataLen keyAddr keyLen : Nat)
  /-- DECRYPT (R113). -/
  | decrypt (dataAddr dataLen keyAddr keyLen : Nat)
  deriving DecidableEq, Repr

end Sys2Proof
end

