-- ==== Sys2Proof/WellFormed.lean ====
section
/-! DEFINITION. When a command can be written as a descriptor: each operand fits its `ADDR_W`-bit field
(spec/30_encoding.md R68). Nothing else is asked: a misaligned address or a bad length is a well-formed command that
faults in CHECK (R77). -/

namespace Sys2Proof

/-- The four operands of a command fit `ADDR_W` bits each. -/
abbrev OperandsFit (cfg : Config) (dataAddr dataLen keyAddr keyLen : Nat) : Prop :=
  dataAddr < cfg.space ∧ dataLen < cfg.space ∧ keyAddr < cfg.space ∧ keyLen < cfg.space

/-- Whether some descriptor encodes the command (R68). -/
def Instr.wellFormed (cfg : Config) : Instr → Bool
  | .encrypt da dl ka kl => decide (OperandsFit cfg da dl ka kl)
  | .decrypt da dl ka kl => decide (OperandsFit cfg da dl ka kl)

end Sys2Proof
end

