-- ==== Sys2Proof/Decode.lean ====
section
/-! DEFINITION. The command decoder and encoder (spec/30_encoding.md R67 to R78): the packed descriptor as a number
and as bytes. A descriptor decodes to exactly one command; what is no descriptor is rejected by name. -/

namespace Sys2Proof

/-- Why a number or a string of bytes is no descriptor. -/
inductive DecodeError where
  /-- The number does not fit the descriptor's `4*ADDR_W + 1` bits (R67). -/
  | tooWide
  /-- Fewer bytes than a descriptor takes. -/
  | tooFewBytes
  /-- More bytes than a descriptor takes. -/
  | tooManyBytes
  deriving DecidableEq, Repr

/-- The unsigned field of `width` bits from bit `lo` up (R12's `d[hi:lo]`). -/
def bitField (d lo width : Nat) : Nat := d / 2 ^ lo % 2 ^ width

/-- The field positions of R68. -/
def opField (d : Nat) : Nat := bitField d 0 1
/-- DATA_ADDR, bits `[ADDR_W : 1]` (R68). -/
def dataAddrField (cfg : Config) (d : Nat) : Nat := bitField d 1 cfg.addrW
/-- DATA_LEN, bits `[2*ADDR_W : ADDR_W+1]` (R68). -/
def dataLenField (cfg : Config) (d : Nat) : Nat := bitField d (cfg.addrW + 1) cfg.addrW
/-- KEY_ADDR, bits `[3*ADDR_W : 2*ADDR_W+1]` (R68). -/
def keyAddrField (cfg : Config) (d : Nat) : Nat := bitField d (2 * cfg.addrW + 1) cfg.addrW
/-- KEY_LEN, bits `[4*ADDR_W : 3*ADDR_W+1]` (R68). -/
def keyLenField (cfg : Config) (d : Nat) : Nat := bitField d (3 * cfg.addrW + 1) cfg.addrW

/-- The decoder on the packed descriptor: OP selects the command, the other fields are its operands (R68, R69, R76). -/
def decode (cfg : Config) (d : Nat) : Except DecodeError Instr :=
  if 2 ^ cfg.descriptorBits ≤ d then .error .tooWide
  else if opField d = 0 then
    .ok (.encrypt (dataAddrField cfg d) (dataLenField cfg d) (keyAddrField cfg d) (keyLenField cfg d))
  else
    .ok (.decrypt (dataAddrField cfg d) (dataLenField cfg d) (keyAddrField cfg d) (keyLenField cfg d))

/-- The packed value of R68:
`OP + DATA_ADDR*2 + DATA_LEN*2^(ADDR_W+1) + KEY_ADDR*2^(2*ADDR_W+1) + KEY_LEN*2^(3*ADDR_W+1)`. -/
def pack (cfg : Config) (op da dl ka kl : Nat) : Nat :=
  op + da * 2 + dl * 2 ^ (cfg.addrW + 1) + ka * 2 ^ (2 * cfg.addrW + 1) + kl * 2 ^ (3 * cfg.addrW + 1)

/-- The encoder (R68, R76): ENCRYPT has `OP = 0`, DECRYPT has `OP = 1`. -/
def encode (cfg : Config) : Instr → Nat
  | .encrypt da dl ka kl => pack cfg 0 da dl ka kl
  | .decrypt da dl ka kl => pack cfg 1 da dl ka kl

/-! ## The descriptor as bytes

The spec gives the descriptor no byte form. The model's (DESIGN CHOICE, assumption log 9) takes bits 7..0 as the first
byte, and so on, in the fewest bytes that hold `4*ADDR_W + 1` bits (17 when `ADDR_W = 32`); the bits left over in the
last byte belong to no field and are 0. -/

/-- How many bytes hold a descriptor. -/
def Config.descriptorBytes (cfg : Config) : Nat := (cfg.descriptorBits + 7) / 8

/-- The number a list of bytes writes, the first byte least significant. -/
def numberOfBytes : List Byte → Nat
  | [] => 0
  | b :: bs => b.toNat + 256 * numberOfBytes bs

/-- The `count` lowest bytes of a number, least significant first. -/
def bytesOfNumber : (count d : Nat) → List Byte
  | 0, _ => []
  | count + 1, d => BitVec.ofNat 8 d :: bytesOfNumber count (d / 256)

/-- The decoder on bytes, total. -/
def decodeBytes (cfg : Config) (bs : List Byte) : Except DecodeError Instr :=
  if bs.length < cfg.descriptorBytes then .error .tooFewBytes
  else if cfg.descriptorBytes < bs.length then .error .tooManyBytes
  else decode cfg (numberOfBytes bs)

/-- The encoder to bytes. -/
def encodeBytes (cfg : Config) (i : Instr) : List Byte := bytesOfNumber cfg.descriptorBytes (encode cfg i)

/-- What the decoder reads from a row of spec/opcode_table.json, whose bits are numbered for `ADDR_W = 32` with bit 0
least significant: the word's `nbits` bits, all higher bits 0, laid out as the bytes of a descriptor. -/
def decodeTableWord (nbits w : Nat) : Option Instr :=
  (decodeBytes Config.examples (bytesOfNumber Config.examples.descriptorBytes (w % 2 ^ nbits))).toOption

end Sys2Proof
end

