-- ==== Sys2Proof/Machine/State.lean ====
section
/-! DEFINITION. The state of the machine, as plain data (spec/10_state.md R20 to R44), the reasons a step can stop, and
the state after reset. -/

namespace Sys2Proof.Machine

/-- SEQ, the sequencer position (R30): the engine has no program counter, and this stands in for one. -/
inductive Seq where
  | idle | check | keyload
  | fInit | fRound | fMix
  | iInit | iTest | iMix | iNext
  | fault
  deriving DecidableEq, Repr

/-- The latched OP bit (R36, R69): 0 is encrypt, 1 is decrypt. -/
inductive Op where
  | encrypt
  | decrypt
  deriving DecidableEq, Repr

/-- The key file K[0..3] (R37). -/
structure KeyFile where
  k0 : Word
  k1 : Word
  k2 : Word
  k3 : Word
  deriving DecidableEq, Repr

/-- Memory: address and byte, addresses strictly rising, no entry equal to what an unlisted address reads as
(`Memory.wf` in Machine/Ops.lean). -/
abbrev Memory := List Host.Cell

/-- Whose turn it is, and what is done in it (R20: the two agents; R141: all that the host can do; assumption log 5).
`tick` and `wait` are turns of the engine, the others turns of the host. -/
inductive Turn where
  /-- The engine takes one step of the sequencer (R31). -/
  | tick
  /-- The engine is left alone until STATE is not BUSY: the `wait` of spec/95_test_vectors.md Part 3. -/
  | wait
  /-- The host presents a packed descriptor at the command port (R129). It replaces one that is still held there (DESIGN
  CHOICE, assumption log 25). -/
  | present (d : Nat)
  /-- The host withdraws what it presented (R129), if anything (assumption log 25). -/
  | withdraw
  /-- The host writes one byte of memory (R62). -/
  | write (a : Nat) (b : Byte)
  /-- The host reads one byte of memory (R62). -/
  | read (a : Nat)
  /-- The host reads STATE, ERR_CODE and ERR_INFO (R42). -/
  | readStatus
  /-- The host asserts reset (R166). -/
  | reset
  deriving DecidableEq, Repr

/-- The machine: the engine (R21), the memory and the command port it works on, the hardware's parameters, and the
model's two own fields. -/
structure State where
  /-- The hardware's parameters (R9, R10, D31). No step writes them. -/
  cfg : Config
  /-- SEQ (R30). -/
  seq : Seq
  /-- The descriptor latches (R36). -/
  op : Op
  dataAddr : Nat
  dataLen : Nat
  keyAddr : Nat
  keyLen : Nat
  /-- K[0..3] (R37). -/
  key : KeyFile
  /-- SUM, Y, Z (R22, R23, R24). -/
  sum : Word
  y : Word
  z : Word
  /-- NW and N (R26), P (R27), RND (R28). -/
  nw : Nat
  n : Nat
  p : Nat
  rnd : Nat
  /-- ERR_CODE (R33) and ERR_INFO (R34). -/
  errCode : BitVec 3
  errInfo : Nat
  /-- The host's memory, which the engine reaches through the memory port (R45). -/
  mem : Memory
  /-- The command port: the packed descriptor the host presents, if any (R67, R129). -/
  port : Option Nat
  /-- The model's own: which agent moves next, oldest first (assumption log 5). -/
  turns : List Turn
  /-- The model's own: how many free values have been used (assumption log 8). -/
  free : Nat
  deriving DecidableEq, Repr

/-- Why the machine stops with a fault. All are safe: no next state, so nothing can be proved of one. -/
inductive Fault where
  /-- The engine stands in FAULT and nothing but reset would leave it, and no reset is scheduled (R157, R160). Raised by
  a step with no turns left and by a command given to an engine in FAULT. Safe. -/
  | engineStopped (code : BitVec 3) (info : Nat)
  /-- An access beyond the address space of R45. Raised by the memory port (no run from reset gets there) and by a host
  access. Safe. -/
  | noSuchAddress (a : Nat)
  /-- An engine access at an address that is no multiple of 4, which the memory port does not carry (R45, R52). No run
  from reset gets there. Safe. -/
  | misalignedAccess (a : Nat)
  /-- F_MIX with P > N: R31 gives no transition (DEDUCED, assumption log 17). No run from reset gets there. Safe. -/
  | noTransition
  deriving DecidableEq, Repr

/-- Why the model gives a situation no meaning. All are safe. -/
inductive Refusal where
  /-- An instruction that has no meaning yet. Raised by exec's arms only. Safe. -/
  | notModelled (mnemonic : String)
  /-- A number presented at the port that is no descriptor (R67; assumption log 23). Raised by the turn `present` and by
  acceptance. Safe. -/
  | notADescriptor
  /-- A region past the top of the address space: `refuse` by R48 and U5. Raised by KEYLOAD (assumption log
  12). Safe. -/
  | regionWraps
  /-- Data region and key region share a byte: `refuse` by R59 and U3. Raised by KEYLOAD (assumption log
  12). Safe. -/
  | regionsOverlap
  /-- The host touches a region of a running command: `refuse` by R64 and U1. Raised by the turns `read` and `write`.
  Safe. -/
  | regionInUse
  deriving DecidableEq, Repr

/-- The outcome of a step of this machine. -/
abbrev Result := Host.Outcome State Fault Refusal

/-- The machine right after reset (R43): idle, no fault. The registers R43 calls unspecified are 0 (DESIGN CHOICE,
assumption log 2), memory lists nothing (log 3), nothing is presented or scheduled (logs 5, 7), and the parameters are
those of the spec's examples (log 1). -/
def State.reset : State where
  cfg := Config.examples
  seq := .idle
  op := .encrypt
  dataAddr := 0
  dataLen := 0
  keyAddr := 0
  keyLen := 0
  key := { k0 := 0, k1 := 0, k2 := 0, k3 := 0 }
  sum := 0
  y := 0
  z := 0
  nw := 0
  n := 0
  p := 0
  rnd := 0
  errCode := 0
  errInfo := 0
  mem := []
  port := none
  turns := []
  free := 0

end Sys2Proof.Machine
end

