-- ==== Sys2Proof/Machine/Ops.lean ====
section
/-! DEFINITION. The named operations over memory and registers that every step uses: bytes and words of memory
(spec/00_scope.md R15, spec/20_memory.md), the memory port, latching a command, taking the engine's one exception
(spec/60_exceptions.md R155) and leaving it, which only reset does (R157, spec/70_reset_and_hazards.md R166). -/

namespace Sys2Proof.Machine

/-! ## Bytes of memory -/

/-- What an address that memory does not list reads as. The spec gives memory no contents before the host writes it
(R43, R60): 00 is a DESIGN CHOICE (assumption log 3), unsafe. -/
def Memory.unlisted : Byte := 0

/-- The byte at an address. -/
def Memory.read : Memory → Nat → Byte
  | [], _ => Memory.unlisted
  | (c, b) :: m, a => if c = a then b else Memory.read m a

/-- Memory with nothing listed at `a`. -/
def Memory.erase : Memory → Nat → Memory
  | [], _ => []
  | (c, b) :: m, a => if c = a then Memory.erase m a else (c, b) :: Memory.erase m a

/-- Memory with `(a, b)` listed before the first higher address. -/
def Memory.insert : Memory → Nat → Byte → Memory
  | [], a, b => [(a, b)]
  | (c, x) :: m, a, b => if a < c then (a, b) :: (c, x) :: m else (c, x) :: Memory.insert m a b

/-- Memory after storing one byte (R55: plain storage). Writing what an unlisted address reads as removes the entry, so
that equal memories are equal lists. -/
def Memory.write (m : Memory) (a : Nat) (b : Byte) : Memory :=
  if b = Memory.unlisted then m.erase a else (m.erase a).insert a b

/-- The canonical form: addresses strictly rising, no entry equal to what an unlisted address reads as. -/
abbrev Memory.wf (m : Memory) : Prop :=
  m.Pairwise (fun c d => c.1 < d.1) ∧ ∀ c ∈ m, c.2 ≠ Memory.unlisted

/-- `MemRead(addr, n)` (R15): the `n` bytes from `a` up, lowest address first. -/
def Memory.readBytes (m : Memory) : (a n : Nat) → List Byte
  | _, 0 => []
  | a, n + 1 => m.read a :: Memory.readBytes m (a + 1) n

/-- `MemWrite(addr, n, bytes)` (R15). -/
def Memory.writeBytes : Memory → Nat → List Byte → Memory
  | m, _, [] => m
  | m, a, b :: bs => Memory.writeBytes (m.write a b) (a + 1) bs

/-! ## Words of memory -/

/-- `word_of_bytes` (R49), of the four bytes at `a, a+1, a+2, a+3`. -/
def wordOfBytes : ByteOrder → (b0 b1 b2 b3 : Byte) → Word
  | .little, b0, b1, b2, b3 => b3 ++ b2 ++ b1 ++ b0
  | .big, b0, b1, b2, b3 => b0 ++ b1 ++ b2 ++ b3

/-- `bytes_of_word` (R50), lowest address first. -/
def bytesOfWord : ByteOrder → Word → List Byte
  | .little, w => [w.extractLsb' 0 8, w.extractLsb' 8 8, w.extractLsb' 16 8, w.extractLsb' 24 8]
  | .big, w => [w.extractLsb' 24 8, w.extractLsb' 16 8, w.extractLsb' 8 8, w.extractLsb' 0 8]

/-- `MemReadW(addr)` (R15). -/
def Memory.readWord (m : Memory) (bo : ByteOrder) (a : Nat) : Word :=
  wordOfBytes bo (m.read a) (m.read (a + 1)) (m.read (a + 2)) (m.read (a + 3))

/-- `MemWriteW(addr, w)` (R15). -/
def Memory.writeWord (m : Memory) (bo : ByteOrder) (a : Nat) (w : Word) : Memory :=
  m.writeBytes a (bytesOfWord bo w)

/-- The words at `a, a+4, …`, `count` of them: a region reinterpreted as a word buffer (R47, R136). -/
def Memory.words (m : Memory) (bo : ByteOrder) (a count : Nat) : List Word :=
  (List.range count).map fun p => m.readWord bo (a + 4 * p)

/-! ## The memory port

It carries word accesses at multiples of 4 inside the address space and nothing else (R45, R52). The two faults are
reached in no run from reset (assumption log 14). -/

/-- Whether the memory port carries an access at `a`. -/
abbrev portCarries (cfg : Config) (a : Nat) : Prop := a % 4 = 0 ∧ a + 4 ≤ cfg.space

/-- The access at `a` happens, or the machine stops. -/
def atPort (cfg : Config) (a : Nat) (done : Result) : Result :=
  if a % 4 ≠ 0 then .fault (.misalignedAccess a)
  else if cfg.space < a + 4 then .fault (.noSuchAddress a)
  else done

/-- The word at `a`, given to the rest of the step. -/
def loadWord (s : State) (a : Nat) (rest : Word → Result) : Result :=
  atPort s.cfg a (rest (s.mem.readWord s.cfg.byteOrder a))

/-- The word `w` stored at `a`, and the rest of the step on the state after. -/
def storeWord (s : State) (a : Nat) (w : Word) (rest : State → Result) : Result :=
  atPort s.cfg a (rest { s with mem := s.mem.writeWord s.cfg.byteOrder a w })

/-! ## The regions of a command -/

/-- Whether the byte at `a` lies in the region of `len` bytes at `base` (R47). -/
abbrev inRegion (base len a : Nat) : Prop := base ≤ a ∧ a < base + len

/-- R48: the region ends inside the address space. -/
abbrev holdsRegion (cfg : Config) (base len : Nat) : Prop := base + len ≤ cfg.space

/-- R59: the two regions share a byte. -/
abbrev regionsMeet (base len base' len' : Nat) : Prop :=
  0 < len ∧ 0 < len' ∧ base < base' + len' ∧ base' < base + len

/-! ## Registers -/

/-- K[i] (R37, R90), for a 2-bit index. -/
def KeyFile.get (k : KeyFile) (i : BitVec 2) : Word :=
  if i = 0 then k.k0 else if i = 1 then k.k1 else if i = 2 then k.k2 else k.k3

/-- The five latches take a command, all together, and SEQ becomes CHECK (R36, R130). The presentation is used up
(assumption log 6). -/
def State.latch (s : State) (op : Op) (da dl ka kl : Nat) : State :=
  { s with op := op, dataAddr := da, dataLen := dl, keyAddr := ka, keyLen := kl, seq := .check, port := none }

/-- The command the latches hold, taken from a decoded descriptor: acceptance (R130). -/
def State.accept (s : State) : Instr → State
  | .encrypt da dl ka kl => s.latch .encrypt da dl ka kl
  | .decrypt da dl ka kl => s.latch .decrypt da dl ka kl

/-- `SEQ <- q` (R14), and nothing else. -/
def State.goto (s : State) (q : Seq) : State := { s with seq := q }

/-- `raise Fault(code, info)`: TAKING THE EXCEPTION (R16, R155). Three writes together and nothing else: nothing is
saved, no mode changes, control goes nowhere. -/
def State.raise (s : State) (code : BitVec 3) (info : Nat) : State :=
  { s with errCode := code, errInfo := info, seq := .fault }

/-- The `len` bytes from `a` up hold free values, those past the top of the address space apart. -/
def scramble (cfg : Config) : (m : Memory) → (a len free : Nat) → Memory
  | m, _, 0, _ => m
  | m, a, len + 1, free =>
    if a < cfg.space then scramble cfg (m.write a (Config.freeByte free)) (a + 1) len (free + 1) else m

/-- Whether STATE reads BUSY (R32): the nine positions other than IDLE and FAULT. -/
abbrev Seq.busy (q : Seq) : Prop := q ≠ .idle ∧ q ≠ .fault

/-- LEAVING THE EXCEPTION, and reset in general (R166, R167; there is no trap return, R157): SEQ, ERR_CODE and ERR_INFO
as R43 gives them, the registers R43 leaves unspecified at the values of `State.reset` (assumption log 2), the port
empty (log 7). Memory is not touched (R166), but that a reset while BUSY leaves the data region open (R168): free
values (log 8). -/
def State.resetBy (s : State) : State :=
  { State.reset with
    cfg := s.cfg
    mem := if s.seq.busy then scramble s.cfg s.mem s.dataAddr s.dataLen s.free else s.mem
    free := if s.seq.busy then s.free + s.dataLen else s.free
    turns := s.turns }

end Sys2Proof.Machine
end

