-- ==== Sys2Proof/Machine/Operands.lean ====
section
/-! DEFINITION. The operands a step works on (spec/30_encoding.md R74, R75): counts and addresses made from the latches,
and the round selector and key index made from SUM and P. -/

namespace Sys2Proof.Machine

/-- DELTA (R7). -/
def delta : Word := 0x9E3779B9#32

/-- `n_words = DATA_LEN div 4` (R74). -/
def wordCount (dataLen : Nat) : Nat := dataLen / 4

/-- `rounds = 6 + (52 div n_words)` (R74, R99): ROUNDS_BASE and ROUNDS_NUM of R7. -/
def roundCount (nWords : Nat) : Nat := 6 + 52 / nWords

/-- The address of data word `p` (R74), `DATA_ADDR + 4*p`. -/
def State.dataWordAddr (s : State) (p : Nat) : Nat := s.dataAddr + 4 * p

/-- The address of key word `i` (R74), `KEY_ADDR + 4*i`. -/
def State.keyWordAddr (s : State) (i : Nat) : Nat := s.keyAddr + 4 * i

/-- The round selector `e = (SUM >> 2) & 3` (R25, R75), a 2-bit value. -/
def roundSelector (sum : Word) : BitVec 2 := ((sum >>> 2) &&& 3#32).setWidth 2

/-- The key index `kidx = (p XOR e) & 3` (R90), a 2-bit value. -/
def keyIndex (p : Nat) (e : BitVec 2) : BitVec 2 := BitVec.ofNat 2 ((p ^^^ e.toNat) &&& 3)

end Sys2Proof.Machine
end

