-- ==== Sys2Proof/Machine/Boundary.lean ====
section
/-! DEFINITION. The front end's steps (spec/43_boundary.md): CHECK, the one place where an exception is raised, and
KEYLOAD. -/

namespace Sys2Proof.Machine

/-- The first precondition that fails, in the order of R133, with the code and the value it reports (R145). -/
def firstViolation (da dl ka kl : Nat) : Option (BitVec 3 × Nat) :=
  if dl % 4 ≠ 0 then some (1, dl)
  else if da % 4 ≠ 0 then some (2, da)
  else if kl ≠ 16 then some (3, kl)
  else if ka % 4 ≠ 0 then some (4, ka)
  else if dl / 4 < 2 then some (5, dl)
  else none

/-- Step CHECK (R133): no memory access, OP not read. -/
def stepCheck (s : State) : Result :=
  match firstViolation s.dataAddr s.dataLen s.keyAddr s.keyLen with
  | some (code, info) => .next (s.raise code info)
  | none => .next (s.goto .keyload)

/-- What validation does not check and the spec gives no meaning (R135): a region that wraps (R48, U5), regions that
overlap (R59, U3). Looked at after CHECK, before any access (assumption log 12). -/
def refuseRegions (cfg : Config) (da dl ka kl : Nat) (rest : Result) : Result :=
  if ¬ holdsRegion cfg da dl then .refused .regionWraps
  else if ¬ holdsRegion cfg ka kl then .refused .regionWraps
  else if regionsMeet da dl ka kl then .refused .regionsOverlap
  else rest

/-- Where KEYLOAD goes (R137, R138): OP selects the pass and has no other effect. -/
def Op.firstStep : Op → Seq
  | .encrypt => .fInit
  | .decrypt => .iInit

/-- Step KEYLOAD (R137). -/
def stepKeyload (s : State) : Result :=
  refuseRegions s.cfg s.dataAddr s.dataLen s.keyAddr s.keyLen <|
    loadWord s (s.keyWordAddr 0) fun w0 =>
    loadWord s (s.keyWordAddr 1) fun w1 =>
    loadWord s (s.keyWordAddr 2) fun w2 =>
    loadWord s (s.keyWordAddr 3) fun w3 =>
    .next { s with key := { k0 := w0, k1 := w1, k2 := w2, k3 := w3 }, seq := s.op.firstStep }

end Sys2Proof.Machine
end

