-- ==== Sys2Proof/Machine/Mixer.lean ====
section
/-! DEFINITION. The round mixer MX and the key lookup (spec/40_mixer.md R83 to R93). -/

namespace Sys2Proof.Machine

/-- `T1`, the "bit-rotation-like term": `A + B` with `A = (z >> 5) XOR (y << 2)` and `B = (y >> 3) XOR (z << 4)` (R89;
shifts before XOR by R91 and logical by R87: PRESUMED, assumption log 21). -/
def shiftTerm (y z : Word) : Word :=
  ((z >>> 5) ^^^ (y <<< 2)) + ((y >>> 3) ^^^ (z <<< 4))

/-- `T2`, the "key-mixing term": `(sum XOR y) + K[kidx]` (R89). With KEY_XOR_Z the key word is first combined with `z`
(D31, assumption log 20). -/
def keyTerm (keyXorZ : Bool) (sum y z keyWord : Word) : Word :=
  (sum ^^^ y) + (if keyXorZ then keyWord ^^^ z else keyWord)

/-- `MX(sum, y, z, p, e, K) = T1 XOR T2` (R89), its six arguments in the document's order (R93). -/
def mx (keyXorZ : Bool) (sum y z : Word) (p : Nat) (e : BitVec 2) (k : KeyFile) : Word :=
  shiftTerm y z ^^^ keyTerm keyXorZ sum y z (k.get (keyIndex p e))

/-- The mixer on the engine's registers: `sum = SUM`, `y = Y`, `z = Z`, `p = P`, `e = SUM[3:2]`, `K = K[0..3]` (R89). -/
def State.mixValue (s : State) (y z : Word) : Word :=
  mx s.cfg.keyXorZ s.sum y z s.p (roundSelector s.sum) s.key

end Sys2Proof.Machine
end

