-- ==== Sys2Proof/Machine/Forward.lean ====
section
/-! DEFINITION. The forward pass: the steps F_INIT, F_ROUND, F_MIX (spec/41_forward.md R101 to R105) and the function
ENC they compute (R98), transcribed on lists of words. -/

namespace Sys2Proof.Machine

/-- Step F_INIT (R101), its lines in sequence, its memory access made as written (R56 lets an implementation make fewer;
assumption log 15). -/
def stepFInit (s : State) : Result :=
  loadWord s (s.dataWordAddr (wordCount s.dataLen - 1)) fun v =>
    .next { s with
      nw := wordCount s.dataLen
      n := wordCount s.dataLen - 1
      rnd := roundCount (wordCount s.dataLen)
      sum := 0
      z := v
      seq := .fRound }

/-- Step F_ROUND: continuing (R102) or finishing (R105). -/
def stepFRound (s : State) : Result :=
  if s.rnd ≠ 0 then .next { s with sum := s.sum + delta, rnd := s.rnd - 1, p := 0, seq := .fMix }
  else .next (s.goto .idle)

/-- The word update of a forward mix step (R103, R104): `Y` from the neighbour at index `q`, `V[P]` plus the mixer's
value stored back, the same value in `Z`. -/
def mixForward (s : State) (q : Nat) (after : State → State) : Result :=
  loadWord s (s.dataWordAddr q) fun y =>
  loadWord s (s.dataWordAddr s.p) fun v =>
  storeWord s (s.dataWordAddr s.p) (v + s.mixValue y s.z) fun t =>
    .next (after { t with y := y, z := v + s.mixValue y s.z })

/-- Step F_MIX: not at the last word (R103), at the last word (R104). -/
def stepFMix (s : State) : Result :=
  if s.p < s.n then mixForward s (s.p + 1) fun t => { t with p := t.p + 1, seq := .fMix }
  else if s.p = s.n then mixForward s 0 fun t => { t with seq := .fRound }
  else .fault .noTransition

/-! ## The function ENC -/

/-- One update of step 3c or 3d of R98: position `p`, its right neighbour `y`, the running `z`. -/
def encMix (kxz : Bool) (k : KeyFile) (sum : Word) (v : List Word) (z : Word) (p : Nat) (y : Word) : List Word × Word :=
  let w := v.getD p 0 + mx kxz sum y z p (roundSelector sum) k
  (v.set p w, w)

/-- Steps 3a to 3d of R98, one round on a buffer whose last index is `n`. -/
def encRound (kxz : Bool) (k : KeyFile) (n : Nat) (v : List Word) (z sum : Word) : List Word × Word × Word :=
  let sum' := sum + delta
  let inner := (List.range n).foldl (fun c p => encMix kxz k sum' c.1 c.2 p (c.1.getD (p + 1) 0)) (v, z)
  let last := encMix kxz k sum' inner.1 inner.2 n (inner.1.getD 0 0)
  (last.1, last.2, sum')

/-- `repeat` of R98: the buffer, `z` and `sum` after so many rounds. -/
def encRounds (kxz : Bool) (k : KeyFile) (n count : Nat) (v : List Word) (z sum : Word) : List Word × Word × Word :=
  (fun c => encRound kxz k n c.1 c.2.1 c.2.2)^[count] (v, z, sum)

/-- `ENC(v, K)` (R98): the forward transform. -/
def enc (kxz : Bool) (v : List Word) (k : KeyFile) : List Word :=
  (encRounds kxz k (v.length - 1) (roundCount v.length) v (v.getD (v.length - 1) 0) 0).1

end Sys2Proof.Machine
end

