-- ==== Sys2Proof/Machine/Inverse.lean ====
section
/-! DEFINITION. The inverse pass: the steps I_INIT, I_TEST, I_MIX, I_NEXT (spec/42_inverse.md R117 to R122) and the
function DEC they compute (R114), transcribed on lists of words. -/

namespace Sys2Proof.Machine

/-- The terminal checksum `rounds * DELTA` (R86, R115). -/
def terminalSum (rounds : Nat) : Word := BitVec.ofNat 32 rounds * delta

/-- Step I_INIT (R117), its lines in sequence, its memory access made as written (R56 lets an implementation make fewer;
assumption log 15). -/
def stepIInit (s : State) : Result :=
  loadWord s (s.dataWordAddr 0) fun v =>
    .next { s with
      nw := wordCount s.dataLen
      n := wordCount s.dataLen - 1
      rnd := roundCount (wordCount s.dataLen)
      sum := terminalSum (roundCount (wordCount s.dataLen))
      y := v
      seq := .iTest }

/-- Step I_TEST: continuing (R118) or finishing (R122). -/
def stepITest (s : State) : Result :=
  if s.sum ≠ 0 then .next { s with p := s.n, seq := .iMix }
  else .next (s.goto .idle)

/-- The word update of an inverse mix step (R119, R120): `Z` from the neighbour at index `q`, `V[P]` less the mixer's
value stored back, the same value in `Y`. -/
def mixInverse (s : State) (q : Nat) (after : State → State) : Result :=
  loadWord s (s.dataWordAddr q) fun z =>
  loadWord s (s.dataWordAddr s.p) fun v =>
  storeWord s (s.dataWordAddr s.p) (v - s.mixValue s.y z) fun t =>
    .next (after { t with z := z, y := v - s.mixValue s.y z })

/-- Step I_MIX: not at the first word (R119), at the first word (R120). -/
def stepIMix (s : State) : Result :=
  if 0 < s.p then mixInverse s (s.p - 1) fun t => { t with p := t.p - 1, seq := .iMix }
  else mixInverse s s.n fun t => { t with seq := .iNext }

/-- Step I_NEXT (R121). -/
def stepINext (s : State) : Result :=
  .next { s with sum := s.sum - delta, seq := .iTest }

/-! ## The function DEC -/

/-- One update of step 2b or 2c of R114: position `p`, its left neighbour `z`, the running `y`. -/
def decMix (kxz : Bool) (k : KeyFile) (sum : Word) (v : List Word) (y : Word) (p : Nat) (z : Word) : List Word × Word :=
  let w := v.getD p 0 - mx kxz sum y z p (roundSelector sum) k
  (v.set p w, w)

/-- Step 2b of R114 over the positions `p, p-1, …, 1`. -/
def decInner (kxz : Bool) (k : KeyFile) (sum : Word) : (p : Nat) → List Word → (y : Word) → List Word × Word
  | 0, v, y => (v, y)
  | p + 1, v, y =>
    let c := decMix kxz k sum v y (p + 1) (v.getD p 0)
    decInner kxz k sum p c.1 c.2

/-- Steps 2a to 2d of R114, one round on a buffer whose last index is `n`. -/
def decRound (kxz : Bool) (k : KeyFile) (n : Nat) (v : List Word) (y sum : Word) : List Word × Word × Word :=
  let inner := decInner kxz k sum n v y
  let last := decMix kxz k sum inner.1 inner.2 0 (inner.1.getD n 0)
  (last.1, last.2, sum - delta)

/-- `while sum != 0` of R114, for at most `count` rounds: the loop takes exactly `rounds` (R124), so the bound is never
what ends it (assumption log 22). -/
def decRounds (kxz : Bool) (k : KeyFile) (n : Nat) : (count : Nat) → List Word → (y sum : Word) → List Word × Word × Word
  | 0, v, y, sum => (v, y, sum)
  | count + 1, v, y, sum =>
    if sum = 0 then (v, y, sum)
    else
      let c := decRound kxz k n v y sum
      decRounds kxz k n count c.1 c.2.1 c.2.2

/-- `DEC(v, K)` (R114): the inverse transform. -/
def dec (kxz : Bool) (v : List Word) (k : KeyFile) : List Word :=
  (decRounds kxz k (v.length - 1) (roundCount v.length) v (v.getD 0 0) (terminalSum (roundCount v.length))).1

end Sys2Proof.Machine
end

