-- ==== Sys2Proof/Machine/Sequencer.lean ====
section
/-! DEFINITION. The sequencer (spec/10_state.md R30, R31): one step of the engine at each of its eleven positions, and
the run of a command to its end. -/

namespace Sys2Proof.Machine

/-- The acceptance step (R130), or no step when no command is presented (R129). -/
def stepIdle (s : State) : Result :=
  match s.port with
  | none => .next s
  | some d =>
    match decode s.cfg d with
    | .ok i => .next (s.accept i)
    | .error _ => .refused .notADescriptor

/-- One step of the sequencer: the table of R31. In FAULT no step is taken (R157). -/
def seqStep (s : State) : Result :=
  match s.seq with
  | .idle => stepIdle s
  | .check => stepCheck s
  | .keyload => stepKeyload s
  | .fInit => stepFInit s
  | .fRound => stepFRound s
  | .fMix => stepFMix s
  | .iInit => stepIInit s
  | .iTest => stepITest s
  | .iMix => stepIMix s
  | .iNext => stepINext s
  | .fault => .next s

/-- The rest of a run, after a step that may have stopped. -/
def andThen (r : Result) (rest : State → Result) : Result :=
  match r with
  | .next s => rest s
  | .fault f => .fault f
  | .refused q => .refused q

/-- `k` steps of the sequencer, the host quiet. -/
def ticks : Nat → State → Result
  | 0, s => .next s
  | k + 1, s => andThen (seqStep s) (ticks k)

/-- Steps of the sequencer while STATE is BUSY, at most `k`. -/
def runBusy : Nat → State → Result
  | 0, s => .next s
  | k + 1, s => if s.seq.busy then andThen (seqStep s) (runBusy k) else .next s

/-- The steps of a passing ENCRYPT after acceptance (R108, R180): CHECK, KEYLOAD, F_INIT, `rounds + 1` F_ROUND,
`rounds * n_words` F_MIX. -/
def encryptTicks (nWords : Nat) : Nat := 4 + roundCount nWords * (nWords + 1)

/-- The steps of a passing DECRYPT after acceptance (R124, R180): CHECK, KEYLOAD, I_INIT, `rounds + 1` I_TEST, `rounds`
I_NEXT, `rounds * n_words` I_MIX. -/
def decryptTicks (nWords : Nat) : Nat := 4 + roundCount nWords * (nWords + 2)

/-- A command given to the engine, which is then left alone (the premise of R57) until the command ends (R18). An engine
in IDLE accepts it (R130) and runs it; BUSY, it is not accepted and has no effect (R129, assumption log 11); in FAULT it
is never accepted and the engine has stopped (R157, R160, log 10). -/
def runCommand (i : Instr) (count : Nat) (s : State) : Result :=
  if s.seq = .idle then runBusy count (s.accept i)
  else if s.seq = .fault then .fault (.engineStopped s.errCode s.errInfo)
  else .next s

end Sys2Proof.Machine
end

