-- ==== Sys2Proof/Machine/Commands.lean ====
section
/-! DEFINITION. The meanings of the two commands (spec/41_forward.md R97, spec/42_inverse.md R113): from acceptance to
completion or fault. -/

namespace Sys2Proof.Machine

/-- ENCRYPT (R97). -/
def execEncrypt (da dl ka kl : Nat) (s : State) : Result :=
  runCommand (.encrypt da dl ka kl) (encryptTicks (wordCount dl)) s

/-- DECRYPT (R113). -/
def execDecrypt (da dl ka kl : Nat) (s : State) : Result :=
  runCommand (.decrypt da dl ka kl) (decryptTicks (wordCount dl)) s

end Sys2Proof.Machine
end

