-- ==== Sys2Proof/Machine/Dispatch.lean ====
section
/-! DEFINITION. From a command to its meaning, one arm per constructor of Instr. -/

namespace Sys2Proof.Machine

/-- The meaning of a command given to the machine. -/
def exec (i : Instr) (s : State) : Host.Outcome State Fault Refusal :=
  match i with
  | .encrypt da dl ka kl => Sys2Proof.Machine.execEncrypt da dl ka kl s
  | .decrypt da dl ka kl => Sys2Proof.Machine.execDecrypt da dl ka kl s

end Sys2Proof.Machine
end

