-- ==== Sys2Proof/Machine/Agents.lean ====
section
/-! DEFINITION. The turns of the two agents (spec/10_state.md R20): the engine left alone, and what the host does
(spec/43_boundary.md R129, R141; spec/20_memory.md R57, R62, R64; spec/70_reset_and_hazards.md R166). -/

namespace Sys2Proof.Machine

/-- The engine left alone: IDLE with a command presented, it runs the command the descriptor decodes to, from acceptance
to its end; IDLE with none, it takes no step (R129); BUSY, it takes one step of the sequencer; in FAULT it has stopped
(R160). -/
def engineAlone (s : State) : Result :=
  if s.seq = .idle then
    match s.port with
    | none => .next s
    | some d =>
      match decode s.cfg d with
      | .ok i => exec i s
      | .error _ => .refused .notADescriptor
  else if s.seq = .fault then .fault (.engineStopped s.errCode s.errInfo)
  else seqStep s

/-- Whether the engine, left alone, has nothing more to do: STATE is not BUSY and no command waits to be accepted. -/
abbrev State.atRest (s : State) : Prop := s.seq = .fault ∨ (s.seq = .idle ∧ s.port = none)

/-- R57, R172: while a command runs the host must not read the data region. The ban starts at acceptance, as in R57, not
at presentation, as in R172: between the two the access is allowed (DESIGN CHOICE, assumption log 26). -/
abbrev State.mayRead (s : State) (a : Nat) : Prop := s.seq.busy → ¬ inRegion s.dataAddr s.dataLen a

/-- R57, R172, R173: while a command runs the host must write neither region. The ban starts at acceptance, as in R57,
not at presentation, as in R172 and R173: between the two the access is allowed (DESIGN CHOICE, assumption log 26). -/
abbrev State.mayWrite (s : State) (a : Nat) : Prop :=
  s.seq.busy → ¬ inRegion s.dataAddr s.dataLen a ∧ ¬ inRegion s.keyAddr s.keyLen a

/-- A host access at `a` that breaks no premise happens; outside the address space there is nothing (R45), and the
premise of R57 broken is refused (R64, assumption log 13). -/
def hostAccess (s : State) (a : Nat) (allowed : Prop) [Decidable allowed] (done : State) : Result :=
  if s.cfg.space ≤ a then .fault (.noSuchAddress a)
  else if ¬ allowed then .refused .regionInUse
  else .next done

/-- One turn, on a state that has the later turns left. A `present` while an earlier descriptor is still held at the port
replaces it, and a `withdraw` with nothing there has no effect: R129, R164, R174 and D2 leave both open (DESIGN CHOICE,
assumption log 25). -/
def takeTurn (t : Turn) (s : State) : Result :=
  match t with
  | .tick => seqStep s
  | .wait => if s.atRest then .next s else engineAlone { s with turns := .wait :: s.turns }
  | .present d =>
    if d < 2 ^ s.cfg.descriptorBits then .next { s with port := some d } else .refused .notADescriptor
  | .withdraw => .next { s with port := none }
  | .write a b => hostAccess s a (s.mayWrite a) { s with mem := s.mem.write a b }
  | .read a => hostAccess s a (s.mayRead a) s
  | .readStatus => .next s
  | .reset => .next s.resetBy

end Sys2Proof.Machine
end

