-- ==== Sys2Proof/Machine/Step.lean ====
section
/-! DEFINITION. One step of the machine: the next turn of the schedule, or the engine left alone when nothing is
scheduled. -/

namespace Sys2Proof.Machine

/-- One step. -/
def step (s : State) : Host.Outcome State Fault Refusal :=
  match s.turns with
  | [] => engineAlone s
  | t :: rest => takeTurn t { s with turns := rest }

/-- `s` with a command presented to an idle engine and nothing else scheduled, so that the next step accepts and runs
exactly it: the descriptor is the word's `nbits` bits, all higher bits 0 (assumption log 9). -/
def State.withFetchWord (s : State) (nbits w : Nat) : State :=
  { s with seq := .idle, port := some (w % 2 ^ nbits), turns := [] }

end Sys2Proof.Machine
end

