-- ==== Sys2Proof/Machine/Flags.lean ====
section
/-! DEFINITION. The engine has no condition codes (spec/10_state.md R35). Its status is the view STATE of SEQ (R32)
beside ERR_CODE and ERR_INFO, which is all the host can read (R42). -/

namespace Sys2Proof.Machine

/-- The three values of STATE (R32). -/
inductive Status where
  | idle
  | busy
  | fault
  deriving DecidableEq, Repr

/-- STATE as a function of SEQ (R32). -/
def Seq.status : Seq → Status
  | .idle => .idle
  | .fault => .fault
  | .check => .busy
  | .keyload => .busy
  | .fInit => .busy
  | .fRound => .busy
  | .fMix => .busy
  | .iInit => .busy
  | .iTest => .busy
  | .iMix => .busy
  | .iNext => .busy

/-- The suggested 2-bit encoding of STATE (R32). -/
def Status.code : Status → BitVec 2
  | .idle => 0
  | .busy => 1
  | .fault => 2

/-- What a host read of the three status values returns (R42). -/
structure StatusRead where
  state : Status
  errCode : BitVec 3
  errInfo : Nat
  deriving DecidableEq, Repr

/-- The three values the host can read (R42, R141). A read has no effect on the engine. -/
def State.status (s : State) : StatusRead :=
  { state := s.seq.status, errCode := s.errCode, errInfo := s.errInfo }

end Sys2Proof.Machine
end

