-- ==== Sys2Proof/Safety.lean ====
section
/-! DEFINITION. What claims are stated in terms of: the premises of a command (spec/70_reset_and_hazards.md R183), the
invariants of the machine, and what a command's run may touch. -/

namespace Sys2Proof.Machine

/-- The five preconditions of R131 and R132. -/
structure PreconditionsHold (da dl ka kl : Nat) : Prop where
  dataLen : dl % 4 = 0
  dataAligned : da % 4 = 0
  keyLen : kl = 16
  keyAligned : ka % 4 = 0
  twoWords : 2 ≤ wordCount dl

/-- The premises that validation does not check (R135, R170 item 4): both regions end inside the address space (R48)
and they share no byte (R59). -/
structure RegionsInSpec (cfg : Config) (da dl ka kl : Nat) : Prop where
  dataHeld : holdsRegion cfg da dl
  keyHeld : holdsRegion cfg ka kl
  disjoint : ¬ regionsMeet da dl ka kl

/-- When a command executes normally: an idle engine, the five preconditions, the two premises on the regions (R170,
R183; that nobody else touches the regions is what leaving the engine alone means). -/
structure CanRun (s : State) (da dl ka kl : Nat) : Prop where
  idle : s.seq = .idle
  pre : PreconditionsHold da dl ka kl
  regions : RegionsInSpec s.cfg da dl ka kl

/-- The data words of memory for a region at `da` of `dl` bytes (R47). -/
def State.dataWordsAt (s : State) (da dl : Nat) : List Word :=
  s.mem.words s.cfg.byteOrder da (wordCount dl)

/-- The key words of memory for a region at `ka` (R47). -/
def State.keyWordsAt (s : State) (ka : Nat) : KeyFile where
  k0 := s.mem.readWord s.cfg.byteOrder ka
  k1 := s.mem.readWord s.cfg.byteOrder (ka + 4)
  k2 := s.mem.readWord s.cfg.byteOrder (ka + 8)
  k3 := s.mem.readWord s.cfg.byteOrder (ka + 12)

/-- Data word `p` of the latched command, `V[p]` (R15). -/
def State.dataWord (s : State) (p : Nat) : Word := s.mem.readWord s.cfg.byteOrder (s.dataWordAddr p)

/-! ## Invariants -/

/-- Every latch, counter and status register, and a presented descriptor, fits the width that R26 to R36 and R67 give
it (assumption log 16). -/
structure State.WidthsFit (s : State) : Prop where
  latches : OperandsFit s.cfg s.dataAddr s.dataLen s.keyAddr s.keyLen
  nw : s.nw < 2 ^ (s.cfg.addrW - 2)
  n : s.n < 2 ^ (s.cfg.addrW - 2)
  p : s.p < 2 ^ (s.cfg.addrW - 2)
  rnd : s.rnd < 2 ^ 6
  errInfo : s.errInfo < s.cfg.space
  port : ∀ d, s.port = some d → d < 2 ^ s.cfg.descriptorBits

/-- Memory is in its canonical form and lists addresses of the address space only (R45). -/
structure State.MemoryLawful (s : State) : Prop where
  wf : s.mem.wf
  inSpace : ∀ c ∈ s.mem, c.1 < s.cfg.space

/-- ERR_CODE and ERR_INFO say what happened (R33, R34, R145, R155): nothing outside FAULT, and in FAULT the first
violation of the descriptor that the latches keep. -/
structure State.FaultRecorded (s : State) : Prop where
  noFault : s.seq ≠ .fault → s.errCode = 0 ∧ s.errInfo = 0
  faulted : s.seq = .fault →
    firstViolation s.dataAddr s.dataLen s.keyAddr s.keyLen = some (s.errCode, s.errInfo)

/-- The positions after CHECK. -/
abbrev Seq.validated (q : Seq) : Prop := q.busy ∧ q ≠ .check

/-- The positions after KEYLOAD. -/
abbrev Seq.keyed (q : Seq) : Prop := q.validated ∧ q ≠ .keyload

/-- The positions after F_INIT or I_INIT. -/
abbrev Seq.inPass (q : Seq) : Prop := q.keyed ∧ q ≠ .fInit ∧ q ≠ .iInit

/-- The forward positions. -/
abbrev Seq.forward (q : Seq) : Prop := q = .fInit ∨ q = .fRound ∨ q = .fMix

/-- The inverse positions. -/
abbrev Seq.inverse (q : Seq) : Prop := q = .iInit ∨ q = .iTest ∨ q = .iMix ∨ q = .iNext

/-- What holds of a running command at each position (R106, R125, R134): the preconditions after CHECK; the premises on
the regions and the key file equal to the key words of memory after KEYLOAD (R38); the counters of the pass; the
checksum as R95 schedules it; and the carried neighbour equal to its word of memory. -/
structure State.PassLawful (s : State) : Prop where
  validated : s.seq.validated → PreconditionsHold s.dataAddr s.dataLen s.keyAddr s.keyLen
  regions : s.seq.keyed → RegionsInSpec s.cfg s.dataAddr s.dataLen s.keyAddr s.keyLen
  keyFile : s.seq.keyed → s.key = s.keyWordsAt s.keyAddr
  forwardOp : s.seq.forward → s.op = .encrypt
  inverseOp : s.seq.inverse → s.op = .decrypt
  counts : s.seq.inPass → s.nw = wordCount s.dataLen ∧ s.n + 1 = s.nw
  position : s.seq = .fMix ∨ s.seq = .iMix ∨ s.seq = .iNext → s.p ≤ s.n
  fRound : s.seq = .fRound →
    s.rnd ≤ roundCount s.nw ∧ s.sum = terminalSum (roundCount s.nw - s.rnd) ∧ s.z = s.dataWord s.n
  fMix : s.seq = .fMix →
    s.rnd < roundCount s.nw ∧ s.sum = terminalSum (roundCount s.nw - s.rnd)
      ∧ s.z = s.dataWord (if s.p = 0 then s.n else s.p - 1)
  iTest : s.seq = .iTest →
    s.rnd = roundCount s.nw ∧ (∃ j, j ≤ s.rnd ∧ s.sum = terminalSum j) ∧ s.y = s.dataWord 0
  iMix : s.seq = .iMix →
    s.rnd = roundCount s.nw ∧ (∃ j, 1 ≤ j ∧ j ≤ s.rnd ∧ s.sum = terminalSum j)
      ∧ s.y = s.dataWord (if s.p = s.n then 0 else s.p + 1)
  iNext : s.seq = .iNext →
    s.rnd = roundCount s.nw ∧ (∃ j, 1 ≤ j ∧ j ≤ s.rnd ∧ s.sum = terminalSum j) ∧ s.y = s.dataWord 0

/-- All of them, with parameters the spec allows (R9). -/
structure State.Lawful (s : State) : Prop where
  cfg : s.cfg.WellFormed
  widths : s.WidthsFit
  memory : s.MemoryLawful
  faults : s.FaultRecorded
  pass : s.PassLawful

/-! ## What the sequencer may do -/

/-- The table of R31, row by row: from a position, under the row's condition, to a position. -/
def transition (s : State) : Seq → Prop := fun q =>
  match s.seq with
  | .idle => (s.port.isSome ∧ q = .check) ∨ (s.port = none ∧ q = .idle)
  | .check =>
    (¬ PreconditionsHold s.dataAddr s.dataLen s.keyAddr s.keyLen ∧ q = .fault)
      ∨ (PreconditionsHold s.dataAddr s.dataLen s.keyAddr s.keyLen ∧ q = .keyload)
  | .keyload => (s.op = .encrypt ∧ q = .fInit) ∨ (s.op = .decrypt ∧ q = .iInit)
  | .fInit => q = .fRound
  | .fRound => (s.rnd ≠ 0 ∧ q = .fMix) ∨ (s.rnd = 0 ∧ q = .idle)
  | .fMix => (s.p < s.n ∧ q = .fMix) ∨ (s.p = s.n ∧ q = .fRound)
  | .iInit => q = .iTest
  | .iTest => (s.sum ≠ 0 ∧ q = .iMix) ∨ (s.sum = 0 ∧ q = .idle)
  | .iMix => (0 < s.p ∧ q = .iMix) ∨ (s.p = 0 ∧ q = .iNext)
  | .iNext => q = .iTest
  | .fault => q = .fault

/-- A run of a command is safe when it ends as R18 says: back in IDLE, or in FAULT with a recorded code; never stuck and
never refused. -/
def SafeEnd (r : Result) : Prop :=
  ∃ t, r = .next t ∧ (t.seq = .idle ∨ (t.seq = .fault ∧ t.errCode ≠ 0))

end Sys2Proof.Machine
end

