-- ==== Sys2Proof/Certificates/Slice0/Obligations.lean ====
section
/-! DEFINITION. The statements about this machine, from the numbered rules of spec/. -/

open Sys2Proof Sys2Proof.Machine

/-! ## Encoding -/

/-- For every parameter and every command whose operands fit, the encoder gives a descriptor, and the decoder reads the
command back from it, as a number and as bytes (R68, R76; the byte form is the model's, log 9). -/
def Obligations.DecodeInvertsEncode : Prop :=
  ∀ (cfg : Config) (i : Instr), i.wellFormed cfg = true →
    encode cfg i < 2 ^ (4 * cfg.addrW + 1) ∧ decode cfg (encode cfg i) = .ok i
      ∧ decodeBytes cfg (encodeBytes cfg i) = .ok i

/-- R76: a decoder written from the table is total on descriptors; bit 0 chooses the command (R69) and the four fields
stand where R68 says; the command is well formed and encodes to the same descriptor; no wider number is one (R67). -/
def Obligations.EveryDescriptorIsOneCommand : Prop :=
  ∀ (cfg : Config) (d : Nat),
    (d < 2 ^ (4 * cfg.addrW + 1) →
      (d % 2 = 0 → decode cfg d = .ok (.encrypt (d / 2 % 2 ^ cfg.addrW) (d / 2 ^ (cfg.addrW + 1) % 2 ^ cfg.addrW)
          (d / 2 ^ (2 * cfg.addrW + 1) % 2 ^ cfg.addrW) (d / 2 ^ (3 * cfg.addrW + 1) % 2 ^ cfg.addrW)))
      ∧ (d % 2 = 1 → decode cfg d = .ok (.decrypt (d / 2 % 2 ^ cfg.addrW) (d / 2 ^ (cfg.addrW + 1) % 2 ^ cfg.addrW)
          (d / 2 ^ (2 * cfg.addrW + 1) % 2 ^ cfg.addrW) (d / 2 ^ (3 * cfg.addrW + 1) % 2 ^ cfg.addrW)))
      ∧ ∃ i, decode cfg d = .ok i ∧ i.wellFormed cfg = true ∧ encode cfg i = d)
    ∧ (2 ^ (4 * cfg.addrW + 1) ≤ d → ∀ i, decode cfg d ≠ .ok i)

/-- R82: the two worked encodings, both ways. -/
def Obligations.WorkedEncodingsDecode : Prop :=
  ∀ cfg : Config, cfg.addrW = 32 →
    decode cfg 0x00000020000040000000004000002000 = .ok (.encrypt 0x1000 32 0x2000 16)
      ∧ decode cfg 0x00000020000040000000004000002001 = .ok (.decrypt 0x1000 32 0x2000 16)
      ∧ encode cfg (.encrypt 0x1000 32 0x2000 16) = 0x00000020000040000000004000002000
      ∧ encode cfg (.decrypt 0x1000 32 0x2000 16) = 0x00000020000040000000004000002001

/-- A step runs the presented command: with nothing scheduled, an idle engine and a descriptor at the port that decodes
to `i`, the step is `exec i` at that state; nothing is added around it. Placing a descriptor by `withFetchWord` makes
such a state of any state (logs 4 and 9). -/
def Obligations.StepRunsPresentedCommand : Prop :=
  (∀ (s : State) (d : Nat) (i : Instr), s.turns = [] → s.seq = .idle → s.port = some d → decode s.cfg d = .ok i →
      step s = exec i s)
    ∧ ∀ (s : State) (nbits w : Nat) (i : Instr), decode s.cfg (w % 2 ^ nbits) = .ok i →
      step (s.withFetchWord nbits w) = exec i (s.withFetchWord nbits w)

/-! ## Presentation and acceptance -/

/-- R129: with no command an idle engine takes no step; a running command is the same whatever stands at the port, and
what stands there stays; in FAULT no step is taken and nothing is accepted. -/
def Obligations.PresentationByState : Prop :=
  ∀ (s : State) (q : Option Nat),
    (s.seq = .idle → seqStep { s with port := none } = .next { s with port := none })
      ∧ (∀ d i, s.seq = .idle → decode s.cfg d = .ok i →
          ∃ t, seqStep { s with port := some d } = .next t ∧ t.seq = .check)
      ∧ (s.seq ≠ .idle → s.seq ≠ .fault →
          seqStep { s with port := q } = andThen (seqStep s) fun t => .next { t with port := q })
      ∧ (s.seq = .fault → seqStep { s with port := q } = .next { s with port := q })

/-- R130: acceptance writes the five latches together and SEQ, and nothing else; what becomes of the port is left out of
the statement (log 6). -/
def Obligations.AcceptanceLatchesDescriptor : Prop :=
  ∀ (s : State) (d da dl ka kl : Nat), s.seq = .idle → s.port = some d →
    (decode s.cfg d = .ok (.encrypt da dl ka kl) →
      ∃ t, seqStep s = .next t ∧ t.seq.status = .busy
        ∧ { t with port := s.port } = { s with
            op := .encrypt, dataAddr := da, dataLen := dl, keyAddr := ka, keyLen := kl, seq := .check })
    ∧ (decode s.cfg d = .ok (.decrypt da dl ka kl) →
      ∃ t, seqStep s = .next t ∧ t.seq.status = .busy
        ∧ { t with port := s.port } = { s with
            op := .decrypt, dataAddr := da, dataLen := dl, keyAddr := ka, keyLen := kl, seq := .check })

/-! ## CHECK, the fault and the refusals -/

/-- R133 and R155: the checks in their order, the first that fails decides; fault entry writes ERR_CODE, ERR_INFO and
SEQ together and nothing else; success writes SEQ only. -/
def Obligations.CheckStepDecides : Prop :=
  ∀ s : State, s.seq = .check →
    (s.dataLen % 4 ≠ 0 →
      seqStep s = .next { s with errCode := 1, errInfo := s.dataLen, seq := .fault })
    ∧ (s.dataLen % 4 = 0 → s.dataAddr % 4 ≠ 0 →
      seqStep s = .next { s with errCode := 2, errInfo := s.dataAddr, seq := .fault })
    ∧ (s.dataLen % 4 = 0 → s.dataAddr % 4 = 0 → s.keyLen ≠ 16 →
      seqStep s = .next { s with errCode := 3, errInfo := s.keyLen, seq := .fault })
    ∧ (s.dataLen % 4 = 0 → s.dataAddr % 4 = 0 → s.keyLen = 16 → s.keyAddr % 4 ≠ 0 →
      seqStep s = .next { s with errCode := 4, errInfo := s.keyAddr, seq := .fault })
    ∧ (s.dataLen % 4 = 0 → s.dataAddr % 4 = 0 → s.keyLen = 16 → s.keyAddr % 4 = 0 → s.dataLen / 4 < 2 →
      seqStep s = .next { s with errCode := 5, errInfo := s.dataLen, seq := .fault })
    ∧ (s.dataLen % 4 = 0 → s.dataAddr % 4 = 0 → s.keyLen = 16 → s.keyAddr % 4 = 0 → 2 ≤ s.dataLen / 4 →
      seqStep s = .next { s with seq := .keyload })

/-- R145 and R152: the code and value recorded for a descriptor are those of the first precondition that fails, and
there is none exactly when all five hold. -/
def Obligations.LowestCodeIsReported : Prop :=
  ∀ (da dl ka kl : Nat) (code : BitVec 3) (info : Nat),
    (firstViolation da dl ka kl = some (code, info) ↔
      (code = 1 ∧ info = dl ∧ dl % 4 ≠ 0)
      ∨ (code = 2 ∧ info = da ∧ da % 4 ≠ 0 ∧ dl % 4 = 0)
      ∨ (code = 3 ∧ info = kl ∧ kl ≠ 16 ∧ dl % 4 = 0 ∧ da % 4 = 0)
      ∨ (code = 4 ∧ info = ka ∧ ka % 4 ≠ 0 ∧ dl % 4 = 0 ∧ da % 4 = 0 ∧ kl = 16)
      ∨ (code = 5 ∧ info = dl ∧ dl / 4 < 2 ∧ dl % 4 = 0 ∧ da % 4 = 0 ∧ kl = 16 ∧ ka % 4 = 0))
    ∧ (firstViolation da dl ka kl = none ↔ PreconditionsHold da dl ka kl)

/-- R154: a command that violates a precondition ends in FAULT with memory untouched and no register changed but the
latches, SEQ, ERR_CODE and ERR_INFO; for both commands, whatever memory holds. What becomes of the port is left out
(log 6). -/
def Obligations.FaultingCommandChangesNothingElse : Prop :=
  ∀ (s : State) (da dl ka kl : Nat) (code : BitVec 3) (info : Nat), s.seq = .idle →
    firstViolation da dl ka kl = some (code, info) →
    (∃ t, exec (.encrypt da dl ka kl) s = .next t ∧ { t with port := s.port } = { s with
        op := .encrypt, dataAddr := da, dataLen := dl, keyAddr := ka, keyLen := kl
        errCode := code, errInfo := info, seq := .fault })
    ∧ (∃ t, exec (.decrypt da dl ka kl) s = .next t ∧ { t with port := s.port } = { s with
        op := .decrypt, dataAddr := da, dataLen := dl, keyAddr := ka, keyLen := kl
        errCode := code, errInfo := info, seq := .fault })

/-- R48 and R59: a command that passes validation but whose region wraps, or whose regions share a byte, is refused by
name (where the check stands is the model's, log 12). -/
def Obligations.RegionsOutsideSpecAreRefused : Prop :=
  ∀ (s : State) (da dl ka kl : Nat), s.seq = .idle → PreconditionsHold da dl ka kl →
    (s.cfg.space < da + dl ∨ s.cfg.space < ka + kl →
      exec (.encrypt da dl ka kl) s = .refused .regionWraps ∧ exec (.decrypt da dl ka kl) s = .refused .regionWraps)
    ∧ (da + dl ≤ s.cfg.space → ka + kl ≤ s.cfg.space → da < ka + kl → ka < da + dl →
      exec (.encrypt da dl ka kl) s = .refused .regionsOverlap
        ∧ exec (.decrypt da dl ka kl) s = .refused .regionsOverlap)

/-- R157: in FAULT no step of the engine and no turn of the host but reset changes SEQ, ERR_CODE, ERR_INFO or any other
register, and memory changes by the host's own writes only; reset leaves FAULT, and ERR_CODE is then 0. -/
def Obligations.FaultIsSticky : Prop :=
  ∀ (s : State) (turn : Turn) (rest : List Turn), s.seq = .fault → s.turns = turn :: rest →
    (turn ≠ .reset → ∀ t, step s = .next t →
      t.seq = .fault ∧ t.errCode = s.errCode ∧ t.errInfo = s.errInfo
        ∧ t.op = s.op ∧ t.dataAddr = s.dataAddr ∧ t.dataLen = s.dataLen ∧ t.keyAddr = s.keyAddr ∧ t.keyLen = s.keyLen
        ∧ t.key = s.key ∧ t.sum = s.sum ∧ t.y = s.y ∧ t.z = s.z ∧ t.nw = s.nw ∧ t.n = s.n ∧ t.p = s.p ∧ t.rnd = s.rnd
        ∧ ((∀ a b, turn ≠ .write a b) → t.mem = s.mem))
    ∧ (turn = .reset → ∃ t, step s = .next t ∧ t.seq = .idle ∧ t.errCode = 0)

/-- R160, as the model reads it (log 10): an engine in FAULT with nothing scheduled has stopped, with the recorded code
and value, and so has one given a command. -/
def Obligations.FaultStopsTheMachine : Prop :=
  ∀ (s : State) (i : Instr), s.seq = .fault →
    (s.turns = [] → step s = .fault (.engineStopped s.errCode s.errInfo))
      ∧ exec i s = .fault (.engineStopped s.errCode s.errInfo)

/-- R166, R168: reset sets SEQ, ERR_CODE and ERR_INFO in any state and leaves memory alone, but for the data region of
a running command. -/
def Obligations.ResetInAnyState : Prop :=
  ∀ (s : State) (rest : List Turn), s.turns = .reset :: rest →
    ∃ t, step s = .next t ∧ t.seq = .idle ∧ t.errCode = 0 ∧ t.errInfo = 0 ∧ t.cfg = s.cfg ∧ t.turns = rest
      ∧ (s.seq.status ≠ .busy → t.mem = s.mem)
      ∧ ∀ a, ¬ (s.dataAddr ≤ a ∧ a < s.dataAddr + s.dataLen) → t.mem.read a = s.mem.read a

/-- R43: the values the spec gives for reset. -/
def Obligations.ResetValues : Prop :=
  State.reset.seq = .idle ∧ State.reset.seq.status = .idle ∧ State.reset.errCode = 0 ∧ State.reset.errInfo = 0

/-! ## The commands -/

/-- ENCRYPT (R97, R98; agreement of the levels, R107): under the premises of a command, for every memory and every
leftover of the registers, it completes; the data words are then ENC of the data words and the key words, every byte
outside the data region is as before, and every register is the one the step rules leave; the port is empty (log 6). -/
def Obligations.EncryptCompletes : Prop :=
  ∀ (s : State) (da dl ka kl : Nat), CanRun s da dl ka kl →
    ∃ t, exec (.encrypt da dl ka kl) s = .next t
      ∧ t.dataWordsAt da dl = enc s.cfg.keyXorZ (s.dataWordsAt da dl) (s.keyWordsAt ka)
      ∧ (∀ a, ¬ (da ≤ a ∧ a < da + dl) → t.mem.read a = s.mem.read a)
      ∧ t.seq = .idle ∧ t.errCode = s.errCode ∧ t.errInfo = s.errInfo
      ∧ t.op = .encrypt ∧ t.dataAddr = da ∧ t.dataLen = dl ∧ t.keyAddr = ka ∧ t.keyLen = kl
      ∧ t.key = s.keyWordsAt ka
      ∧ t.nw = dl / 4 ∧ t.n = dl / 4 - 1 ∧ t.p = dl / 4 - 1 ∧ t.rnd = 0
      ∧ t.sum = BitVec.ofNat 32 (6 + 52 / (dl / 4)) * delta
      ∧ t.y = t.mem.readWord s.cfg.byteOrder da ∧ t.z = t.mem.readWord s.cfg.byteOrder (da + dl - 4)
      ∧ t.cfg = s.cfg ∧ t.port = none ∧ t.turns = s.turns ∧ t.free = s.free

/-- DECRYPT (R113, R114; agreement of the levels, R123), likewise. -/
def Obligations.DecryptCompletes : Prop :=
  ∀ (s : State) (da dl ka kl : Nat), CanRun s da dl ka kl →
    ∃ t, exec (.decrypt da dl ka kl) s = .next t
      ∧ t.dataWordsAt da dl = dec s.cfg.keyXorZ (s.dataWordsAt da dl) (s.keyWordsAt ka)
      ∧ (∀ a, ¬ (da ≤ a ∧ a < da + dl) → t.mem.read a = s.mem.read a)
      ∧ t.seq = .idle ∧ t.errCode = s.errCode ∧ t.errInfo = s.errInfo
      ∧ t.op = .decrypt ∧ t.dataAddr = da ∧ t.dataLen = dl ∧ t.keyAddr = ka ∧ t.keyLen = kl
      ∧ t.key = s.keyWordsAt ka
      ∧ t.nw = dl / 4 ∧ t.n = dl / 4 - 1 ∧ t.p = 0 ∧ t.rnd = 6 + 52 / (dl / 4)
      ∧ t.sum = 0
      ∧ t.y = t.mem.readWord s.cfg.byteOrder da ∧ t.z = t.mem.readWord s.cfg.byteOrder (da + dl - 4)
      ∧ t.cfg = s.cfg ∧ t.port = none ∧ t.turns = s.turns ∧ t.free = s.free

/-- R107: from F_INIT, whatever the key file holds, the steps reach IDLE with the data region holding ENC of the words
it held, and nothing else in memory changed. -/
def Obligations.ForwardStepsComputeEnc : Prop :=
  ∀ s : State, s.seq = .fInit → PreconditionsHold s.dataAddr s.dataLen s.keyAddr s.keyLen →
    RegionsInSpec s.cfg s.dataAddr s.dataLen s.keyAddr s.keyLen →
    ∃ k t, ticks k s = .next t ∧ t.seq = .idle
      ∧ t.dataWordsAt s.dataAddr s.dataLen = enc s.cfg.keyXorZ (s.dataWordsAt s.dataAddr s.dataLen) s.key
      ∧ ∀ a, ¬ (s.dataAddr ≤ a ∧ a < s.dataAddr + s.dataLen) → t.mem.read a = s.mem.read a

/-- R123: the same of the inverse steps, from I_INIT, and DEC. -/
def Obligations.InverseStepsComputeDec : Prop :=
  ∀ s : State, s.seq = .iInit → PreconditionsHold s.dataAddr s.dataLen s.keyAddr s.keyLen →
    RegionsInSpec s.cfg s.dataAddr s.dataLen s.keyAddr s.keyLen →
    ∃ k t, ticks k s = .next t ∧ t.seq = .idle
      ∧ t.dataWordsAt s.dataAddr s.dataLen = dec s.cfg.keyXorZ (s.dataWordsAt s.dataAddr s.dataLen) s.key
      ∧ ∀ a, ¬ (s.dataAddr ≤ a ∧ a < s.dataAddr + s.dataLen) → t.mem.read a = s.mem.read a

/-- R126: DEC undoes ENC and ENC undoes DEC on every word list of at least two words under every key; and, for either
byte order, DECRYPT of what ENCRYPT left restores memory byte for byte, when the key bytes and the lengths are the
same. -/
def Obligations.RoundTrip : Prop :=
  (∀ (kxz : Bool) (v : List Word) (k : KeyFile), 2 ≤ v.length →
      dec kxz (enc kxz v k) k = v ∧ enc kxz (dec kxz v k) k = v)
    ∧ ∀ (s : State) (da dl ka kl : Nat), CanRun s da dl ka kl →
      (∃ t u, exec (.encrypt da dl ka kl) s = .next t ∧ exec (.decrypt da dl ka kl) t = .next u
        ∧ ∀ a, u.mem.read a = s.mem.read a)
      ∧ (∃ t u, exec (.decrypt da dl ka kl) s = .next t ∧ exec (.encrypt da dl ka kl) t = .next u
        ∧ ∀ a, u.mem.read a = s.mem.read a)

/-- R125: one inverse round undoes one forward round: from the buffer, checksum and first word that the forward round
left, it gives back the buffer, the checksum and, as the carried `y`, the first word. -/
def Obligations.InverseRoundUndoesForwardRound : Prop :=
  ∀ (kxz : Bool) (k : KeyFile) (n : Nat) (v : List Word) (sum : Word), v.length = n + 1 → 1 ≤ n →
    let c := encRound kxz k n v (v.getD n 0) sum
    decRound kxz k n c.1 (c.1.getD 0 0) c.2.2 = (v, v.getD 0 0, sum)
      ∧ c.1.length = v.length ∧ c.2.1 = c.1.getD n 0 ∧ c.2.2 = sum + delta

/-- R100: steps 3c and 3d of ENC are one loop over `p = 0 … n` with `y = v[(p+1) mod n_words]`. -/
def Obligations.ForwardRoundIsCyclic : Prop :=
  ∀ (kxz : Bool) (k : KeyFile) (n : Nat) (v : List Word) (z sum : Word), v.length = n + 1 →
    let c := (List.range (n + 1)).foldl
      (fun c p => encMix kxz k (sum + delta) c.1 c.2 p (c.1.getD ((p + 1) % (n + 1)) 0)) (v, z)
    encRound kxz k n v z sum = (c.1, c.2, sum + delta)

/-- R116: steps 2b and 2c of DEC are one loop over `p = n … 0` with `z = v[(p-1) mod n_words]`. -/
def Obligations.InverseRoundIsCyclic : Prop :=
  ∀ (kxz : Bool) (k : KeyFile) (n : Nat) (v : List Word) (y sum : Word), v.length = n + 1 →
    let c := (List.range (n + 1)).reverse.foldl
      (fun c p => decMix kxz k sum c.1 c.2 p (c.1.getD ((p + n) % (n + 1)) 0)) (v, y)
    decRound kxz k n v y sum = (c.1, c.2, sum - delta)

/-- R111 (length preservation): a transform gives as many words as it was given. -/
def Obligations.TransformsPreserveLength : Prop :=
  ∀ (kxz : Bool) (v : List Word) (k : KeyFile),
    (enc kxz v k).length = v.length ∧ (dec kxz v k).length = v.length

/-- The worked examples of R97 and R113 (vectors F1 and I1) and, for the loop structure, vector F3 of three words. -/
def Obligations.WorkedTransforms : Prop :=
  enc false [0x00000000#32, 0x00000000#32] ⟨0, 0, 0, 0⟩ = [0xB74B03B6#32, 0x6FE8C718#32]
    ∧ dec false [0xB74B03B6#32, 0x6FE8C718#32] ⟨0, 0, 0, 0⟩ = [0x00000000#32, 0x00000000#32]
    ∧ enc false [0xDEADBEEF#32, 0xCAFEBABE#32, 0x00000000#32] ⟨0x01234567, 0x89ABCDEF, 0xFEDCBA98, 0x76543210⟩
      = [0x4E081F9E#32, 0x0584F242#32, 0x8C676C11#32]

/-- R180: from a presented command to its end an ENCRYPT takes exactly `5 + rounds * (n_words + 1)` steps of the
sequencer, a DECRYPT `5 + rounds * (n_words + 2)`, a command that faults 2; BUSY in between; and the command is those
steps. -/
def Obligations.StepCounts : Prop :=
  ∀ (s : State) (d da dl ka kl : Nat), s.seq = .idle → s.port = some d →
    (decode s.cfg d = .ok (.encrypt da dl ka kl) → CanRun s da dl ka kl →
      let count := 5 + (6 + 52 / (dl / 4)) * (dl / 4 + 1)
      (∀ k, 1 ≤ k → k < count → ∃ u, ticks k s = .next u ∧ u.seq.status = .busy)
        ∧ ∃ t, ticks count s = .next t ∧ t.seq = .idle ∧ exec (.encrypt da dl ka kl) s = .next t)
    ∧ (decode s.cfg d = .ok (.decrypt da dl ka kl) → CanRun s da dl ka kl →
      let count := 5 + (6 + 52 / (dl / 4)) * (dl / 4 + 2)
      (∀ k, 1 ≤ k → k < count → ∃ u, ticks k s = .next u ∧ u.seq.status = .busy)
        ∧ ∃ t, ticks count s = .next t ∧ t.seq = .idle ∧ exec (.decrypt da dl ka kl) s = .next t)
    ∧ (decode s.cfg d = .ok (.encrypt da dl ka kl) ∨ decode s.cfg d = .ok (.decrypt da dl ka kl) →
      ¬ PreconditionsHold da dl ka kl →
      (∃ u, ticks 1 s = .next u ∧ u.seq.status = .busy) ∧ ∃ t, ticks 2 s = .next t ∧ t.seq = .fault)

/-- R18: a command ends in exactly one of two ways: IDLE with every data word at its final value, or FAULT with memory
untouched; so does every command whose regions are in the spec when it passes validation. -/
def Obligations.CommandEndsInOneOfTwoWays : Prop :=
  ∀ (s : State) (da dl ka kl : Nat) (i : Instr), s.seq = .idle →
    i = .encrypt da dl ka kl ∨ i = .decrypt da dl ka kl →
    (PreconditionsHold da dl ka kl → RegionsInSpec s.cfg da dl ka kl) →
    ∃ t, exec i s = .next t
      ∧ ((PreconditionsHold da dl ka kl ∧ t.seq = .idle
          ∧ (i = .encrypt da dl ka kl →
            t.dataWordsAt da dl = enc s.cfg.keyXorZ (s.dataWordsAt da dl) (s.keyWordsAt ka))
          ∧ (i = .decrypt da dl ka kl →
            t.dataWordsAt da dl = dec s.cfg.keyXorZ (s.dataWordsAt da dl) (s.keyWordsAt ka)))
        ∨ (¬ PreconditionsHold da dl ka kl ∧ t.seq = .fault ∧ t.mem = s.mem))

/-- R54, R58: whatever the state, a command that answers a next state changes no byte outside its data region, hence no
byte of a key region it was not refused for, and none at all when it faults. -/
def Obligations.CommandWritesOnlyItsDataRegion : Prop :=
  ∀ (s t : State) (da dl ka kl : Nat),
    exec (.encrypt da dl ka kl) s = .next t ∨ exec (.decrypt da dl ka kl) s = .next t →
    (∀ a, ¬ (da ≤ a ∧ a < da + dl) → t.mem.read a = s.mem.read a)
      ∧ (∀ a, ka ≤ a → a < ka + kl → t.mem.read a = s.mem.read a)
      ∧ (t.seq = .fault → t.mem = s.mem)

/-- R40: the result of a command, memory and status, is a function of the command, the memory at acceptance and the
parameters: nothing that the engine's other registers held before matters. -/
def Obligations.ResultIgnoresLeftovers : Prop :=
  ∀ (i : Instr) (s₁ s₂ t₁ : State), s₁.seq = .idle → s₂.seq = .idle → s₁.cfg = s₂.cfg → s₁.mem = s₂.mem →
    s₁.errCode = 0 → s₂.errCode = 0 → s₁.errInfo = 0 → s₂.errInfo = 0 → exec i s₁ = .next t₁ →
    ∃ t₂, exec i s₂ = .next t₂ ∧ t₂.mem = t₁.mem ∧ t₂.status = t₁.status

/-- R181: the steps a command takes, and with them the addresses it accesses, do not depend on the values of data or
key, nor on the byte order, nor on what the registers held before: two engines of one address width given one command
go through the same positions, with the same counters and checksum once the pass has set them. -/
def Obligations.StepsIgnoreDataAndKey : Prop :=
  ∀ (i : Instr) (s₁ s₂ u₁ : State) (k : Nat), s₁.seq = .idle → s₂.seq = .idle → s₁.cfg.addrW = s₂.cfg.addrW →
    ticks k (s₁.accept i) = .next u₁ →
    ∃ u₂, ticks k (s₂.accept i) = .next u₂ ∧ u₂.seq = u₁.seq
      ∧ u₂.dataAddr = u₁.dataAddr ∧ u₂.dataLen = u₁.dataLen ∧ u₂.keyAddr = u₁.keyAddr
      ∧ (u₁.seq.inPass → u₂.nw = u₁.nw ∧ u₂.n = u₁.n ∧ u₂.rnd = u₁.rnd ∧ u₂.sum = u₁.sum)
      ∧ (u₁.seq = .fMix ∨ u₁.seq = .iMix → u₂.p = u₁.p)

/-! ## The mixer and the arithmetic -/

/-- R89 with the laws R84 and R87 written out on naturals: the mixer's formula, its sums modulo 2^32, its shifts by
division and multiplication, the key word picked by `(p XOR e) & 3`. -/
def Obligations.MixerFormula : Prop :=
  ∀ (sum y z : Word) (p : Nat) (e : BitVec 2) (k : KeyFile),
    let a := BitVec.ofNat 32 (z.toNat / 2 ^ 5) ^^^ BitVec.ofNat 32 (y.toNat * 2 ^ 2 % 2 ^ 32)
    let b := BitVec.ofNat 32 (y.toNat / 2 ^ 3) ^^^ BitVec.ofNat 32 (z.toNat * 2 ^ 4 % 2 ^ 32)
    let t1 := BitVec.ofNat 32 ((a.toNat + b.toNat) % 2 ^ 32)
    let keyWord := [k.k0, k.k1, k.k2, k.k3].getD ((p ^^^ e.toNat) % 4) 0
    let t2 := BitVec.ofNat 32 (((sum ^^^ y).toNat + keyWord.toNat) % 2 ^ 32)
    mx false sum y z p e k = t1 ^^^ t2

/-- Vectors M3, M5, M6, M12 and M13, with R89's worked example and R94's corner cases among them. -/
def Obligations.WorkedMixes : Prop :=
  mx false 0 0xFFFFFFFF#32 0xFFFFFFFF#32 0 0 ⟨0, 0, 0, 0⟩ = 0x27FFFFED#32
    ∧ mx false 0x9E3779B9#32 0x41414141#32 0x41414141#32 0 2 ⟨0x03020100, 0x07060504, 0x0B0A0908, 0x0F0E0D0C⟩
      = 0xC9CB0946#32
    ∧ mx false 0x12345678#32 0x9ABCDEF0#32 0x0FEDCBA9#32 5 1 ⟨1, 2, 3, 4⟩ = 0xD09FBE62#32
    ∧ mx false 0 0 0 1000003 1 ⟨0xA, 0xB, 0xC, 0xD⟩ = 0xC#32
    ∧ mx false 0xFFFFFFFF#32 0 0xFFFFFFFF#32 0 3 ⟨0, 0, 0, 1⟩ = 0x07FFFFEF#32

/-- R90: the key index is the low two bits of the position, permuted by the selector; it has period 4 along the buffer;
the mixer sees the key only through the word it picks (R96 c). -/
def Obligations.KeyLookup : Prop :=
  ∀ (p : Nat) (e : BitVec 2),
    keyIndex p e = BitVec.ofNat 2 p ^^^ e ∧ keyIndex (p + 4) e = keyIndex p e
      ∧ (∀ k : KeyFile, k.get (keyIndex p e) = [k.k0, k.k1, k.k2, k.k3].getD ((p ^^^ e.toNat) % 4) 0)
      ∧ ∀ (kxz : Bool) (sum y z : Word) (k k' : KeyFile), k.get (keyIndex p e) = k'.get (keyIndex p e) →
        mx kxz sum y z p e k = mx kxz sum y z p e k'

/-- R95: the checksum of round `r` is `r * DELTA`, zero only when 2^32 divides `r`; the table of its values and
selectors for every round a command can reach. -/
def Obligations.ChecksumSchedule : Prop :=
  (∀ r : Nat, terminalSum r = 0 ↔ 2 ^ 32 ∣ r)
    ∧ (∀ r : Nat, terminalSum (r + 1) = terminalSum r + delta)
    ∧ ((List.range 32).map fun r => (terminalSum (r + 1), roundSelector (terminalSum (r + 1)))) =
      [(0x9E3779B9#32, 2#2), (0x3C6EF372#32, 0#2), (0xDAA66D2B#32, 2#2), (0x78DDE6E4#32, 1#2),
       (0x1715609D#32, 3#2), (0xB54CDA56#32, 1#2), (0x5384540F#32, 3#2), (0xF1BBCDC8#32, 2#2)]
      ++ [(0x8FF34781#32, 0#2), (0x2E2AC13A#32, 2#2), (0xCC623AF3#32, 0#2), (0x6A99B4AC#32, 3#2),
       (0x08D12E65#32, 1#2), (0xA708A81E#32, 3#2), (0x454021D7#32, 1#2), (0xE3779B90#32, 0#2)]
      ++ [(0x81AF1549#32, 2#2), (0x1FE68F02#32, 0#2), (0xBE1E08BB#32, 2#2), (0x5C558274#32, 1#2),
       (0xFA8CFC2D#32, 3#2), (0x98C475E6#32, 1#2), (0x36FBEF9F#32, 3#2), (0xD5336958#32, 2#2)]
      ++ [(0x736AE311#32, 0#2), (0x11A25CCA#32, 2#2), (0xAFD9D683#32, 0#2), (0x4E11503C#32, 3#2),
       (0xEC48C9F5#32, 1#2), (0x8A8043AE#32, 3#2), (0x28B7BD67#32, 1#2), (0xC6EF3720#32, 0#2)]

/-- R99: the round count and its table, over every word count a command can have. -/
def Obligations.RoundCountTable : Prop :=
  ∀ n : Nat, 2 ≤ n → roundCount n = 6 + 52 / n ∧
    roundCount n =
      if n = 2 then 32 else if n = 3 then 23 else if n = 4 then 19 else if n = 5 then 16 else if n = 6 then 14
      else if n = 7 then 13 else if n = 8 then 12 else if n ≤ 10 then 11 else if n ≤ 13 then 10
      else if n ≤ 17 then 9 else if n ≤ 26 then 8 else if n ≤ 52 then 7 else 6

/-- R49, R50: a word is the sum of its bytes in the byte order, and the reinterpretation is lossless both ways. -/
def Obligations.ByteOrderIsLossless : Prop :=
  ∀ (bo : ByteOrder) (w : Word) (b0 b1 b2 b3 : Byte),
    (wordOfBytes .little b0 b1 b2 b3).toNat
        = b0.toNat + b1.toNat * 2 ^ 8 + b2.toNat * 2 ^ 16 + b3.toNat * 2 ^ 24
      ∧ (wordOfBytes .big b0 b1 b2 b3).toNat
        = b0.toNat * 2 ^ 24 + b1.toNat * 2 ^ 16 + b2.toNat * 2 ^ 8 + b3.toNat
      ∧ bytesOfWord bo (wordOfBytes bo b0 b1 b2 b3) = [b0, b1, b2, b3]
      ∧ ∃ c0 c1 c2 c3, bytesOfWord bo w = [c0, c1, c2, c3] ∧ wordOfBytes bo c0 c1 c2 c3 = w

/-! ## The steps of the sequencer -/

/-- R31: every step of the sequencer is a row of the transition table. -/
def Obligations.SequencerFollowsItsTable : Prop :=
  ∀ s t : State, seqStep s = .next t → transition s t.seq

/-- R137: KEYLOAD loads the four key words and dispatches on OP, and changes nothing else. -/
def Obligations.KeyloadStep : Prop :=
  ∀ s : State, s.seq = .keyload → PreconditionsHold s.dataAddr s.dataLen s.keyAddr s.keyLen →
    RegionsInSpec s.cfg s.dataAddr s.dataLen s.keyAddr s.keyLen →
    seqStep s = .next { s with
      key := { k0 := s.mem.readWord s.cfg.byteOrder s.keyAddr, k1 := s.mem.readWord s.cfg.byteOrder (s.keyAddr + 4)
               k2 := s.mem.readWord s.cfg.byteOrder (s.keyAddr + 8)
               k3 := s.mem.readWord s.cfg.byteOrder (s.keyAddr + 12) }
      seq := if s.op = .encrypt then .fInit else .iInit }

/-- R101, R102, R105: F_INIT, and F_ROUND continuing and finishing. -/
def Obligations.ForwardInitAndRoundSteps : Prop :=
  ∀ s : State,
    (s.seq = .fInit → portCarries s.cfg (s.dataAddr + 4 * (s.dataLen / 4 - 1)) →
      seqStep s = .next { s with
        nw := s.dataLen / 4, n := s.dataLen / 4 - 1, rnd := 6 + 52 / (s.dataLen / 4), sum := 0
        z := s.mem.readWord s.cfg.byteOrder (s.dataAddr + 4 * (s.dataLen / 4 - 1)), seq := .fRound })
    ∧ (s.seq = .fRound → s.rnd ≠ 0 →
      seqStep s = .next { s with sum := s.sum + 0x9E3779B9#32, rnd := s.rnd - 1, p := 0, seq := .fMix })
    ∧ (s.seq = .fRound → s.rnd = 0 → seqStep s = .next { s with seq := .idle })

/-- R103, R104: F_MIX before the last word and at it. -/
def Obligations.ForwardMixSteps : Prop :=
  ∀ s : State, s.seq = .fMix → portCarries s.cfg (s.dataAddr + 4 * s.p) →
    (s.p < s.n → portCarries s.cfg (s.dataAddr + 4 * (s.p + 1)) →
      let y := s.mem.readWord s.cfg.byteOrder (s.dataAddr + 4 * (s.p + 1))
      let w := s.mem.readWord s.cfg.byteOrder (s.dataAddr + 4 * s.p)
        + mx s.cfg.keyXorZ s.sum y s.z s.p (((s.sum >>> 2) &&& 3#32).setWidth 2) s.key
      seqStep s = .next { s with
        y := y, mem := s.mem.writeWord s.cfg.byteOrder (s.dataAddr + 4 * s.p) w, z := w, p := s.p + 1, seq := .fMix })
    ∧ (s.p = s.n → portCarries s.cfg s.dataAddr →
      let y := s.mem.readWord s.cfg.byteOrder s.dataAddr
      let w := s.mem.readWord s.cfg.byteOrder (s.dataAddr + 4 * s.n)
        + mx s.cfg.keyXorZ s.sum y s.z s.n (((s.sum >>> 2) &&& 3#32).setWidth 2) s.key
      seqStep s = .next { s with
        y := y, mem := s.mem.writeWord s.cfg.byteOrder (s.dataAddr + 4 * s.n) w, z := w, seq := .fRound })

/-- R117, R118, R121, R122: I_INIT, I_TEST continuing and finishing, I_NEXT. -/
def Obligations.InverseInitTestAndNextSteps : Prop :=
  ∀ s : State,
    (s.seq = .iInit → portCarries s.cfg s.dataAddr →
      seqStep s = .next { s with
        nw := s.dataLen / 4, n := s.dataLen / 4 - 1, rnd := 6 + 52 / (s.dataLen / 4)
        sum := BitVec.ofNat 32 (6 + 52 / (s.dataLen / 4)) * 0x9E3779B9#32
        y := s.mem.readWord s.cfg.byteOrder s.dataAddr, seq := .iTest })
    ∧ (s.seq = .iTest → s.sum ≠ 0 → seqStep s = .next { s with p := s.n, seq := .iMix })
    ∧ (s.seq = .iTest → s.sum = 0 → seqStep s = .next { s with seq := .idle })
    ∧ (s.seq = .iNext → seqStep s = .next { s with sum := s.sum - 0x9E3779B9#32, seq := .iTest })

/-- R119, R120: I_MIX after the first word and at it. -/
def Obligations.InverseMixSteps : Prop :=
  ∀ s : State, s.seq = .iMix → portCarries s.cfg (s.dataAddr + 4 * s.p) →
    (0 < s.p → portCarries s.cfg (s.dataAddr + 4 * (s.p - 1)) →
      let z := s.mem.readWord s.cfg.byteOrder (s.dataAddr + 4 * (s.p - 1))
      let w := s.mem.readWord s.cfg.byteOrder (s.dataAddr + 4 * s.p)
        - mx s.cfg.keyXorZ s.sum s.y z s.p (((s.sum >>> 2) &&& 3#32).setWidth 2) s.key
      seqStep s = .next { s with
        z := z, mem := s.mem.writeWord s.cfg.byteOrder (s.dataAddr + 4 * s.p) w, y := w, p := s.p - 1, seq := .iMix })
    ∧ (s.p = 0 → portCarries s.cfg (s.dataAddr + 4 * s.n) →
      let z := s.mem.readWord s.cfg.byteOrder (s.dataAddr + 4 * s.n)
      let w := s.mem.readWord s.cfg.byteOrder s.dataAddr
        - mx s.cfg.keyXorZ s.sum s.y z 0 (((s.sum >>> 2) &&& 3#32).setWidth 2) s.key
      seqStep s = .next { s with
        z := z, mem := s.mem.writeWord s.cfg.byteOrder s.dataAddr w, y := w, seq := .iNext })

/-- Who writes what (R22 to R28, R33, R34, R36, R37, R53): a step of the sequencer leaves a register or memory alone
unless its position is one of the writers that the register's rule lists. -/
def Obligations.OnlyTheListedStepsWrite : Prop :=
  ∀ s t : State, seqStep s = .next t →
    (s.seq ≠ .idle → t.op = s.op ∧ t.dataAddr = s.dataAddr ∧ t.dataLen = s.dataLen ∧ t.keyAddr = s.keyAddr
        ∧ t.keyLen = s.keyLen ∧ t.port = s.port)
      ∧ (s.seq ≠ .check → t.errCode = s.errCode ∧ t.errInfo = s.errInfo)
      ∧ (s.seq ≠ .keyload → t.key = s.key)
      ∧ (s.seq ≠ .fInit → s.seq ≠ .iInit → t.nw = s.nw ∧ t.n = s.n)
      ∧ (s.seq ≠ .fInit → s.seq ≠ .fRound → s.seq ≠ .iInit → t.rnd = s.rnd)
      ∧ (s.seq ≠ .fInit → s.seq ≠ .fRound → s.seq ≠ .iInit → s.seq ≠ .iNext → t.sum = s.sum)
      ∧ (s.seq ≠ .fRound → s.seq ≠ .fMix → s.seq ≠ .iTest → s.seq ≠ .iMix → t.p = s.p)
      ∧ (s.seq ≠ .fMix → s.seq ≠ .iInit → s.seq ≠ .iMix → t.y = s.y)
      ∧ (s.seq ≠ .fInit → s.seq ≠ .fMix → s.seq ≠ .iMix → t.z = s.z)
      ∧ (s.seq ≠ .fMix → s.seq ≠ .iMix → t.mem = s.mem)
      ∧ t.cfg = s.cfg ∧ t.turns = s.turns ∧ t.free = s.free

/-- R53, R58: a mix step stores one word, at the address of data word P, and leaves every other byte alone; the word
stored is the new Z forward and the new Y inverse. -/
def Obligations.MixStepsStoreOneWord : Prop :=
  ∀ s t : State, seqStep s = .next t → s.seq = .fMix ∨ s.seq = .iMix →
    (∀ a, ¬ (s.dataWordAddr s.p ≤ a ∧ a < s.dataWordAddr s.p + 4) → t.mem.read a = s.mem.read a)
      ∧ t.mem.readWord s.cfg.byteOrder (s.dataWordAddr s.p) = (if s.seq = .fMix then t.z else t.y)

/-- R109: in a command of two words the mixer is given the same word as `y` and as `z`, forward and inverse. -/
def Obligations.TwoWordBufferMixesOneNeighbour : Prop :=
  ∀ s t : State, s.PassLawful → s.dataLen = 8 → seqStep s = .next t →
    (s.seq = .fMix → t.y = s.z) ∧ (s.seq = .iMix → t.z = s.y)

/-! ## Invariants and the whole machine -/

/-- The state after reset is lawful. -/
def Obligations.ResetIsLawful : Prop := State.reset.Lawful

/-- Memory stays in its canonical form and inside the address space, at every step of the machine, whichever agent
moves. -/
def Obligations.StepKeepsMemoryLawful : Prop :=
  ∀ s t : State, s.MemoryLawful → step s = .next t → t.MemoryLawful

/-- Every latch, counter and status register keeps within its width (R26, R28, R34, R36), at every step. -/
def Obligations.StepKeepsWidths : Prop :=
  ∀ s t : State, s.cfg.WellFormed → s.WidthsFit → step s = .next t → t.WidthsFit

/-- ERR_CODE and ERR_INFO are zero outside FAULT and in FAULT record the first violation of the latched descriptor
(R33, R155), at every step. -/
def Obligations.StepKeepsFaultRecorded : Prop :=
  ∀ s t : State, s.FaultRecorded → step s = .next t → t.FaultRecorded

/-- What holds of a running command at each position (R106, R125, R134) holds after every step of the machine. -/
def Obligations.StepKeepsPassLawful : Prop :=
  ∀ s t : State, s.PassLawful → step s = .next t → t.PassLawful

/-- The whole invariant: every step of the machine from a lawful state that answers a next state answers a lawful one,
under the same parameters (R51: no step switches the byte order). -/
def Obligations.StepKeepsLawful : Prop :=
  ∀ s t : State, s.Lawful → step s = .next t → t.Lawful ∧ t.cfg = s.cfg

/-- R144: in a lawful state no step of a running command stops the machine, but KEYLOAD on regions the spec gives no
meaning; and only CHECK raises the exception. -/
def Obligations.RunningCommandNeverStops : Prop :=
  ∀ s : State, s.PassLawful → s.seq.status = .busy →
    (s.seq = .keyload → RegionsInSpec s.cfg s.dataAddr s.dataLen s.keyAddr s.keyLen) →
    ∃ t, seqStep s = .next t ∧ (t.seq = .fault → s.seq = .check)

/-- R62, R64: a write of another agent outside both regions of a running command changes no step of it: the two
commute. -/
def Obligations.ForeignWriteCommutesWithStep : Prop :=
  ∀ (s : State) (a : Nat) (b : Byte), s.MemoryLawful → s.PassLawful → s.seq.status = .busy →
    ¬ (s.dataAddr ≤ a ∧ a < s.dataAddr + s.dataLen) → ¬ (s.keyAddr ≤ a ∧ a < s.keyAddr + s.keyLen) →
    seqStep { s with mem := s.mem.write a b }
      = andThen (seqStep s) fun t => .next { t with mem := t.mem.write a b }

/-- R57, R62: while a command runs, a host write in either region or a host read in the data region is refused by name
(log 13), and a host write elsewhere in the address space changes that one byte and nothing else. -/
def Obligations.HostAccessWhileRunning : Prop :=
  ∀ (s : State) (rest : List Turn) (a : Nat) (b : Byte), s.seq.status = .busy → a < s.cfg.space →
    (s.turns = .write a b :: rest →
      inRegion s.dataAddr s.dataLen a ∨ inRegion s.keyAddr s.keyLen a → step s = .refused .regionInUse)
    ∧ (s.turns = .read a :: rest → inRegion s.dataAddr s.dataLen a → step s = .refused .regionInUse)
    ∧ (s.turns = .read a :: rest → ¬ inRegion s.dataAddr s.dataLen a → step s = .next { s with turns := rest })
    ∧ (s.turns = .write a b :: rest → ¬ inRegion s.dataAddr s.dataLen a → ¬ inRegion s.keyAddr s.keyLen a →
      ∃ t, step s = .next t ∧ t.mem.read a = b ∧ (∀ a', a' ≠ a → t.mem.read a' = s.mem.read a')
        ∧ { t with mem := s.mem } = { s with turns := rest })

/-- R32: STATE is IDLE, FAULT or BUSY as SEQ is IDLE, FAULT or any other position, and its code is never 3. -/
def Obligations.StateViewsSeq : Prop :=
  ∀ q : Seq, (q.status = .idle ↔ q = .idle) ∧ (q.status = .fault ↔ q = .fault)
    ∧ (q.status = .busy ↔ q ≠ .idle ∧ q ≠ .fault)
    ∧ (q.status.code = 0 ↔ q.status = .idle) ∧ (q.status.code = 1 ↔ q.status = .busy)
    ∧ (q.status.code = 2 ↔ q.status = .fault) ∧ q.status.code ≠ 3

/-- R42: no turn of the host but reset writes a register of the engine, and a read of the status changes nothing. -/
def Obligations.HostActionsLeaveTheEngineAlone : Prop :=
  ∀ (s t : State) (turn : Turn) (rest : List Turn), s.turns = turn :: rest →
    turn ≠ .tick → turn ≠ .wait → turn ≠ .reset → step s = .next t →
    { t with mem := s.mem, port := s.port, turns := s.turns } = s
      ∧ (turn = .readStatus → t = { s with turns := rest })
end

