-- ==== Sys2Proof/Laws/Memory.lean ====
section
/-! SUPPORT. The laws of memory: read after write by byte and by word, the canonical form kept by every operation, and
equality of canonical memories by their reads. -/

namespace Sys2Proof.Machine

-- One theorem at a time, to keep within the memory of a check.
set_option Elab.async false

/-! ## Bytes -/

@[simp] theorem read_nil (a : Nat) : Memory.read [] a = Memory.unlisted := rfl

theorem read_erase_same (m : Memory) (a : Nat) : (m.erase a).read a = Memory.unlisted := by
  induction m with
  | nil => rfl
  | cons c m ih =>
    obtain ⟨c, b⟩ := c
    by_cases h : c = a <;> simp [Memory.erase, Memory.read, h, ih]

theorem read_erase_other {a b : Nat} (h : b ≠ a) (m : Memory) : (m.erase a).read b = m.read b := by
  induction m with
  | nil => rfl
  | cons c m ih =>
    obtain ⟨c, x⟩ := c
    by_cases hc : c = a
    · subst hc; simp [Memory.erase, Memory.read, ih, Ne.symm h]
    · simp [Memory.erase, Memory.read, hc, ih]

theorem read_insert_same (m : Memory) (a : Nat) (b : Byte) (h : ∀ c ∈ m, c.1 ≠ a) :
    (m.insert a b).read a = b := by
  induction m with
  | nil => simp [Memory.insert, Memory.read]
  | cons c m ih =>
    obtain ⟨c, x⟩ := c
    have hc : c ≠ a := h (c, x) (by simp)
    have ih := ih fun d hd => h d (by simp [hd])
    by_cases hlt : a < c <;> simp [Memory.insert, Memory.read, hlt, hc, ih]

theorem read_insert_other {a a' : Nat} (h : a' ≠ a) (m : Memory) (b : Byte) :
    (m.insert a b).read a' = m.read a' := by
  induction m with
  | nil => simp [Memory.insert, Memory.read, Ne.symm h]
  | cons c m ih =>
    obtain ⟨c, x⟩ := c
    by_cases hlt : a < c
    · simp [Memory.insert, Memory.read, hlt, Ne.symm h]
    · simp [Memory.insert, Memory.read, hlt, ih]

theorem mem_erase {m : Memory} {a : Nat} {c : Host.Cell} : c ∈ m.erase a ↔ c ∈ m ∧ c.1 ≠ a := by
  induction m with
  | nil => simp [Memory.erase]
  | cons d m ih =>
    obtain ⟨d, x⟩ := d
    by_cases hd : d = a
    · subst hd
      simp only [Memory.erase, if_pos, ih, List.mem_cons]
      constructor
      · rintro ⟨h, hne⟩; exact ⟨.inr h, hne⟩
      · rintro ⟨rfl | h, hne⟩
        · exact absurd rfl hne
        · exact ⟨h, hne⟩
    · simp only [Memory.erase, if_neg hd, List.mem_cons, ih]
      constructor
      · rintro (rfl | ⟨h, hne⟩)
        · exact ⟨.inl rfl, hd⟩
        · exact ⟨.inr h, hne⟩
      · rintro ⟨rfl | h, hne⟩
        · exact .inl rfl
        · exact .inr ⟨h, hne⟩

theorem mem_insert {m : Memory} {a : Nat} {b : Byte} {c : Host.Cell} :
    c ∈ m.insert a b ↔ c = (a, b) ∨ c ∈ m := by
  induction m with
  | nil => simp [Memory.insert]
  | cons d m ih =>
    obtain ⟨d, x⟩ := d
    by_cases hlt : a < d
    · simp [Memory.insert, hlt]
    · simp only [Memory.insert, if_neg hlt, List.mem_cons, ih]
      tauto

/-- Read after write at the same address (R55). -/
theorem read_write_same (m : Memory) (a : Nat) (b : Byte) : (m.write a b).read a = b := by
  unfold Memory.write
  split
  · next h => rw [read_erase_same, h]
  · exact read_insert_same _ a b fun c hc => (mem_erase.mp hc).2

/-- A write leaves every other address alone (R55). -/
theorem read_write_other {a a' : Nat} (h : a' ≠ a) (m : Memory) (b : Byte) :
    (m.write a b).read a' = m.read a' := by
  unfold Memory.write
  split
  · exact read_erase_other h m
  · rw [read_insert_other h, read_erase_other h]

theorem read_write (m : Memory) (a a' : Nat) (b : Byte) :
    (m.write a b).read a' = if a' = a then b else m.read a' := by
  split
  · next h => rw [h, read_write_same]
  · next h => exact read_write_other h m b

/-! ## The canonical form -/

theorem erase_wf {m : Memory} (h : m.wf) (a : Nat) : (m.erase a).wf := by
  refine ⟨?_, fun c hc => h.2 c (mem_erase.mp hc).1⟩
  have h1 := h.1
  clear h
  induction m with
  | nil => exact List.Pairwise.nil
  | cons d m ih =>
    obtain ⟨d, x⟩ := d
    rw [List.pairwise_cons] at h1
    by_cases hd : d = a
    · simp only [Memory.erase, if_pos hd]; exact ih h1.2
    · simp only [Memory.erase, if_neg hd, List.pairwise_cons]
      exact ⟨fun c hc => h1.1 c (mem_erase.mp hc).1, ih h1.2⟩

theorem insert_pairwise {m : Memory} {a : Nat} {b : Byte} (h : m.Pairwise fun c d => c.1 < d.1)
    (ha : ∀ c ∈ m, c.1 ≠ a) : (m.insert a b).Pairwise fun c d => c.1 < d.1 := by
  induction m with
  | nil => simp [Memory.insert]
  | cons d m ih =>
    obtain ⟨d, x⟩ := d
    have hp := List.pairwise_cons.mp h
    have hda : d ≠ a := ha (d, x) (by simp)
    by_cases hlt : a < d
    · simp only [Memory.insert, if_pos hlt, List.pairwise_cons]
      refine ⟨fun c hc => ?_, hp⟩
      rcases List.mem_cons.mp hc with rfl | hc
      · exact hlt
      · exact Nat.lt_trans hlt (hp.1 c hc)
    · simp only [Memory.insert, if_neg hlt, List.pairwise_cons]
      refine ⟨fun c hc => ?_, ih hp.2 fun c hc => ha c (by simp [hc])⟩
      rcases mem_insert.mp hc with rfl | hc
      · show d < a; omega
      · exact hp.1 c hc

/-- Every write keeps the canonical form. -/
theorem write_wf {m : Memory} (h : m.wf) (a : Nat) (b : Byte) : (m.write a b).wf := by
  unfold Memory.write
  have he := erase_wf h a
  split
  · exact he
  · next hb =>
    refine ⟨insert_pairwise he.1 fun c hc => (mem_erase.mp hc).2, fun c hc => ?_⟩
    rcases mem_insert.mp hc with rfl | hc
    · exact hb
    · exact he.2 c hc

/-- A write lists no address but its own and those listed before. -/
theorem mem_write {m : Memory} {a : Nat} {b : Byte} {c : Host.Cell} (h : c ∈ m.write a b) : c.1 = a ∨ c ∈ m := by
  unfold Memory.write at h
  split at h
  · exact .inr (mem_erase.mp h).1
  · rcases mem_insert.mp h with rfl | h
    · exact .inl rfl
    · exact .inr (mem_erase.mp h).1

theorem read_of_lt_all {m : Memory} {a : Nat} (h : ∀ c ∈ m, a < c.1) : m.read a = Memory.unlisted := by
  induction m with
  | nil => rfl
  | cons d m ih =>
    obtain ⟨d, x⟩ := d
    have : d ≠ a := Nat.ne_of_gt (h (d, x) (by simp))
    simp [Memory.read, this, ih fun c hc => h c (by simp [hc])]

/-- Canonical memories that read alike are equal. -/
theorem Memory.ext_of_read {m m' : Memory} (h : m.wf) (h' : m'.wf) (hr : ∀ a, m.read a = m'.read a) : m = m' := by
  induction m generalizing m' with
  | nil =>
    cases m' with
    | nil => rfl
    | cons d m' =>
      obtain ⟨d, x⟩ := d
      have := hr d
      simp [Memory.read] at this
      exact absurd this.symm (h'.2 (d, x) (by simp))
  | cons c m ih =>
    obtain ⟨c, b⟩ := c
    have hp := List.pairwise_cons.mp h.1
    have hb : b ≠ Memory.unlisted := h.2 (c, b) (by simp)
    cases m' with
    | nil =>
      have := hr c
      simp [Memory.read] at this
      exact absurd this hb
    | cons d m' =>
      obtain ⟨d, x⟩ := d
      have hp' := List.pairwise_cons.mp h'.1
      have hx : x ≠ Memory.unlisted := h'.2 (d, x) (by simp)
      have hcd : c = d := by
        by_contra hne
        rcases Nat.lt_or_gt_of_ne hne with hlt | hlt
        · have h1 := hr c
          rw [read_of_lt_all (m := (d, x) :: m')] at h1
          · simp [Memory.read] at h1; exact hb h1
          · intro e he
            rcases List.mem_cons.mp he with rfl | he
            · exact hlt
            · exact Nat.lt_trans hlt (hp'.1 e he)
        · have h1 := hr d
          rw [read_of_lt_all (m := (c, b) :: m)] at h1
          · simp [Memory.read] at h1; exact hx h1.symm
          · intro e he
            rcases List.mem_cons.mp he with rfl | he
            · exact hlt
            · exact Nat.lt_trans hlt (hp.1 e he)
      subst hcd
      have hbx : b = x := by simpa [Memory.read] using hr c
      subst hbx
      have : m = m' := by
        refine ih ⟨hp.2, fun e he => h.2 e (by simp [he])⟩ ⟨hp'.2, fun e he => h'.2 e (by simp [he])⟩ fun a => ?_
        by_cases ha : c = a
        · subst ha
          rw [read_of_lt_all fun e he => hp.1 e he, read_of_lt_all fun e he => hp'.1 e he]
        · simpa [Memory.read, ha] using hr a
      rw [this]

/-! ## Strings of bytes -/

theorem writeBytes_wf {m : Memory} (h : m.wf) (a : Nat) (bs : List Byte) : (m.writeBytes a bs).wf := by
  induction bs generalizing m a with
  | nil => exact h
  | cons b bs ih => exact ih (write_wf h a b) (a + 1)

theorem mem_writeBytes {m : Memory} {a : Nat} {bs : List Byte} {c : Host.Cell} (h : c ∈ m.writeBytes a bs) :
    inRegion a bs.length c.1 ∨ c ∈ m := by
  induction bs generalizing m a with
  | nil => exact .inr h
  | cons b bs ih =>
    rcases ih h with h | h
    · left; simp only [inRegion, List.length_cons] at *; omega
    · rcases mem_write h with h | h
      · left; simp only [inRegion, List.length_cons]; omega
      · exact .inr h

theorem read_writeBytes_outside {m : Memory} {a a' : Nat} {bs : List Byte} (h : ¬ inRegion a bs.length a') :
    (m.writeBytes a bs).read a' = m.read a' := by
  induction bs generalizing m a with
  | nil => rfl
  | cons b bs ih =>
    simp only [inRegion, List.length_cons] at h
    have h1 : ¬ inRegion (a + 1) bs.length a' := by simp only [inRegion]; omega
    rw [Memory.writeBytes, ih h1, read_write_other (by omega)]

theorem scramble_wf {cfg : Config} {m : Memory} (h : m.wf) (a len free : Nat) : (scramble cfg m a len free).wf := by
  induction len generalizing m a free with
  | zero => exact h
  | succ len ih =>
    unfold scramble
    split
    · exact ih (write_wf h _ _) _ _
    · exact h

theorem mem_scramble {cfg : Config} {m : Memory} {a len free : Nat} {c : Host.Cell}
    (h : c ∈ scramble cfg m a len free) : c.1 < cfg.space ∨ c ∈ m := by
  induction len generalizing m a free with
  | zero => exact .inr h
  | succ len ih =>
    unfold scramble at h
    split at h
    · next ha =>
      rcases ih h with h | h
      · exact .inl h
      · rcases mem_write h with h | h
        · exact .inl (h ▸ ha)
        · exact .inr h
    · exact .inr h

/-- A reset during BUSY leaves every byte outside the data region alone (R168). -/
theorem read_scramble_outside {cfg : Config} {m : Memory} {a len free a' : Nat} (h : ¬ inRegion a len a') :
    (scramble cfg m a len free).read a' = m.read a' := by
  induction len generalizing m a free with
  | zero => rfl
  | succ len ih =>
    simp only [inRegion] at h
    unfold scramble
    split
    · rw [ih (by simp only [inRegion]; omega), read_write_other (by omega)]
    · rfl

/-! ## Words -/

@[simp] theorem bytesOfWord_length (bo : ByteOrder) (w : Word) : (bytesOfWord bo w).length = 4 := by
  cases bo <;> rfl

theorem writeWord_wf {m : Memory} (h : m.wf) (bo : ByteOrder) (a : Nat) (w : Word) : (m.writeWord bo a w).wf :=
  writeBytes_wf h a _

theorem mem_writeWord {m : Memory} {bo : ByteOrder} {a : Nat} {w : Word} {c : Host.Cell}
    (h : c ∈ m.writeWord bo a w) : inRegion a 4 c.1 ∨ c ∈ m := by
  have := mem_writeBytes h
  rwa [bytesOfWord_length] at this

/-- A word store leaves every byte outside its four alone. -/
theorem read_writeWord_outside {m : Memory} {bo : ByteOrder} {a a' : Nat} {w : Word} (h : ¬ inRegion a 4 a') :
    (m.writeWord bo a w).read a' = m.read a' :=
  read_writeBytes_outside (by rwa [bytesOfWord_length])

/-- A word is read from its four bytes only. -/
theorem readWord_congr {m m' : Memory} (bo : ByteOrder) {a : Nat}
    (h : ∀ a', inRegion a 4 a' → m.read a' = m'.read a') : m.readWord bo a = m'.readWord bo a := by
  simp only [inRegion] at h
  simp only [Memory.readWord, h a (by omega), h (a + 1) (by omega), h (a + 2) (by omega), h (a + 3) (by omega)]

/-- A word read after the same word was stored. -/
theorem readWord_writeWord_same (m : Memory) (bo : ByteOrder) (a : Nat) (w : Word) :
    (m.writeWord bo a w).readWord bo a = w := by
  cases bo <;>
  · simp only [Memory.writeWord, bytesOfWord, Memory.writeBytes, Memory.readWord, wordOfBytes, read_write]
    ext i hi
    simp
    grind

/-- A word read where no byte of the stored word lies. -/
theorem readWord_writeWord_other (m : Memory) (bo : ByteOrder) {a a' : Nat} (w : Word) (h : a + 4 ≤ a' ∨ a' + 4 ≤ a) :
    (m.writeWord bo a w).readWord bo a' = m.readWord bo a' :=
  readWord_congr bo fun b hb => read_writeWord_outside (by simp only [inRegion] at *; omega)

@[simp] theorem words_length (m : Memory) (bo : ByteOrder) (a count : Nat) : (m.words bo a count).length = count := by
  simp [Memory.words]

theorem words_getElem? (m : Memory) (bo : ByteOrder) (a count p : Nat) :
    (m.words bo a count)[p]? = if p < count then some (m.readWord bo (a + 4 * p)) else none := by
  simp only [Memory.words, List.getElem?_map]
  split
  · next h => simp [h]
  · next h => simp [h]

theorem words_getD {m : Memory} {bo : ByteOrder} {a count p : Nat} (h : p < count) (w : Word) :
    (m.words bo a count).getD p w = m.readWord bo (a + 4 * p) := by
  rw [List.getD_eq_getElem?_getD, words_getElem?, if_pos h, Option.getD_some]

/-- Storing word `p` of a region sets element `p` of its words. -/
theorem words_writeWord (m : Memory) (bo : ByteOrder) (a count p : Nat) (w : Word) (h : p < count) :
    (m.writeWord bo (a + 4 * p) w).words bo a count = (m.words bo a count).set p w := by
  apply List.ext_getElem?
  intro q
  rw [words_getElem?, List.getElem?_set, words_getElem?]
  by_cases hq : p = q
  · subst hq; simp [h, readWord_writeWord_same]
  · simp only [if_neg hq]
    rw [readWord_writeWord_other _ _ _ (by omega)]

theorem words_congr {m m' : Memory} (bo : ByteOrder) {a count : Nat}
    (h : ∀ a', inRegion a (4 * count) a' → m.read a' = m'.read a') : m.words bo a count = m'.words bo a count := by
  apply List.map_congr_left
  intro p hp
  have := List.mem_range.mp hp
  exact readWord_congr bo fun b hb => h b (by simp only [inRegion] at *; omega)

end Sys2Proof.Machine
end

