-- ==== Sys2Proof/Laws/State.lean ====
section
/-! SUPPORT. One lemma per field per named update of the state, so that no later proof unfolds a record update. -/

namespace Sys2Proof.Machine

-- One theorem at a time, to keep within the memory of a check.
set_option Elab.async false

section latch
variable (s : State) (o : Op) (da dl ka kl : Nat)

@[simp] theorem latch_cfg : (s.latch o da dl ka kl).cfg = s.cfg := rfl
@[simp] theorem latch_seq : (s.latch o da dl ka kl).seq = .check := rfl
@[simp] theorem latch_op : (s.latch o da dl ka kl).op = o := rfl
@[simp] theorem latch_dataAddr : (s.latch o da dl ka kl).dataAddr = da := rfl
@[simp] theorem latch_dataLen : (s.latch o da dl ka kl).dataLen = dl := rfl
@[simp] theorem latch_keyAddr : (s.latch o da dl ka kl).keyAddr = ka := rfl
@[simp] theorem latch_keyLen : (s.latch o da dl ka kl).keyLen = kl := rfl
@[simp] theorem latch_key : (s.latch o da dl ka kl).key = s.key := rfl
@[simp] theorem latch_sum : (s.latch o da dl ka kl).sum = s.sum := rfl
@[simp] theorem latch_y : (s.latch o da dl ka kl).y = s.y := rfl
@[simp] theorem latch_z : (s.latch o da dl ka kl).z = s.z := rfl
@[simp] theorem latch_nw : (s.latch o da dl ka kl).nw = s.nw := rfl
@[simp] theorem latch_n : (s.latch o da dl ka kl).n = s.n := rfl
@[simp] theorem latch_p : (s.latch o da dl ka kl).p = s.p := rfl
@[simp] theorem latch_rnd : (s.latch o da dl ka kl).rnd = s.rnd := rfl
@[simp] theorem latch_errCode : (s.latch o da dl ka kl).errCode = s.errCode := rfl
@[simp] theorem latch_errInfo : (s.latch o da dl ka kl).errInfo = s.errInfo := rfl
@[simp] theorem latch_mem : (s.latch o da dl ka kl).mem = s.mem := rfl
@[simp] theorem latch_port : (s.latch o da dl ka kl).port = none := rfl
@[simp] theorem latch_turns : (s.latch o da dl ka kl).turns = s.turns := rfl
@[simp] theorem latch_free : (s.latch o da dl ka kl).free = s.free := rfl
end latch

section goto
variable (s : State) (q : Seq)

@[simp] theorem goto_cfg : (s.goto q).cfg = s.cfg := rfl
@[simp] theorem goto_seq : (s.goto q).seq = q := rfl
@[simp] theorem goto_op : (s.goto q).op = s.op := rfl
@[simp] theorem goto_dataAddr : (s.goto q).dataAddr = s.dataAddr := rfl
@[simp] theorem goto_dataLen : (s.goto q).dataLen = s.dataLen := rfl
@[simp] theorem goto_keyAddr : (s.goto q).keyAddr = s.keyAddr := rfl
@[simp] theorem goto_keyLen : (s.goto q).keyLen = s.keyLen := rfl
@[simp] theorem goto_key : (s.goto q).key = s.key := rfl
@[simp] theorem goto_sum : (s.goto q).sum = s.sum := rfl
@[simp] theorem goto_y : (s.goto q).y = s.y := rfl
@[simp] theorem goto_z : (s.goto q).z = s.z := rfl
@[simp] theorem goto_nw : (s.goto q).nw = s.nw := rfl
@[simp] theorem goto_n : (s.goto q).n = s.n := rfl
@[simp] theorem goto_p : (s.goto q).p = s.p := rfl
@[simp] theorem goto_rnd : (s.goto q).rnd = s.rnd := rfl
@[simp] theorem goto_errCode : (s.goto q).errCode = s.errCode := rfl
@[simp] theorem goto_errInfo : (s.goto q).errInfo = s.errInfo := rfl
@[simp] theorem goto_mem : (s.goto q).mem = s.mem := rfl
@[simp] theorem goto_port : (s.goto q).port = s.port := rfl
@[simp] theorem goto_turns : (s.goto q).turns = s.turns := rfl
@[simp] theorem goto_free : (s.goto q).free = s.free := rfl
end goto

section raise
variable (s : State) (code : BitVec 3) (info : Nat)

@[simp] theorem raise_cfg : (s.raise code info).cfg = s.cfg := rfl
@[simp] theorem raise_seq : (s.raise code info).seq = .fault := rfl
@[simp] theorem raise_op : (s.raise code info).op = s.op := rfl
@[simp] theorem raise_dataAddr : (s.raise code info).dataAddr = s.dataAddr := rfl
@[simp] theorem raise_dataLen : (s.raise code info).dataLen = s.dataLen := rfl
@[simp] theorem raise_keyAddr : (s.raise code info).keyAddr = s.keyAddr := rfl
@[simp] theorem raise_keyLen : (s.raise code info).keyLen = s.keyLen := rfl
@[simp] theorem raise_key : (s.raise code info).key = s.key := rfl
@[simp] theorem raise_sum : (s.raise code info).sum = s.sum := rfl
@[simp] theorem raise_y : (s.raise code info).y = s.y := rfl
@[simp] theorem raise_z : (s.raise code info).z = s.z := rfl
@[simp] theorem raise_nw : (s.raise code info).nw = s.nw := rfl
@[simp] theorem raise_n : (s.raise code info).n = s.n := rfl
@[simp] theorem raise_p : (s.raise code info).p = s.p := rfl
@[simp] theorem raise_rnd : (s.raise code info).rnd = s.rnd := rfl
@[simp] theorem raise_errCode : (s.raise code info).errCode = code := rfl
@[simp] theorem raise_errInfo : (s.raise code info).errInfo = info := rfl
@[simp] theorem raise_mem : (s.raise code info).mem = s.mem := rfl
@[simp] theorem raise_port : (s.raise code info).port = s.port := rfl
@[simp] theorem raise_turns : (s.raise code info).turns = s.turns := rfl
@[simp] theorem raise_free : (s.raise code info).free = s.free := rfl
end raise

section accept
variable (s : State) (i : Instr)

@[simp] theorem accept_seq : (s.accept i).seq = .check := by cases i <;> rfl
@[simp] theorem accept_port : (s.accept i).port = none := by cases i <;> rfl
@[simp] theorem accept_cfg : (s.accept i).cfg = s.cfg := by cases i <;> rfl
@[simp] theorem accept_key : (s.accept i).key = s.key := by cases i <;> rfl
@[simp] theorem accept_sum : (s.accept i).sum = s.sum := by cases i <;> rfl
@[simp] theorem accept_y : (s.accept i).y = s.y := by cases i <;> rfl
@[simp] theorem accept_z : (s.accept i).z = s.z := by cases i <;> rfl
@[simp] theorem accept_nw : (s.accept i).nw = s.nw := by cases i <;> rfl
@[simp] theorem accept_n : (s.accept i).n = s.n := by cases i <;> rfl
@[simp] theorem accept_p : (s.accept i).p = s.p := by cases i <;> rfl
@[simp] theorem accept_rnd : (s.accept i).rnd = s.rnd := by cases i <;> rfl
@[simp] theorem accept_errCode : (s.accept i).errCode = s.errCode := by cases i <;> rfl
@[simp] theorem accept_errInfo : (s.accept i).errInfo = s.errInfo := by cases i <;> rfl
@[simp] theorem accept_mem : (s.accept i).mem = s.mem := by cases i <;> rfl
@[simp] theorem accept_turns : (s.accept i).turns = s.turns := by cases i <;> rfl
@[simp] theorem accept_free : (s.accept i).free = s.free := by cases i <;> rfl

@[simp] theorem accept_encrypt (da dl ka kl : Nat) :
    s.accept (.encrypt da dl ka kl) = s.latch .encrypt da dl ka kl := rfl
@[simp] theorem accept_decrypt (da dl ka kl : Nat) :
    s.accept (.decrypt da dl ka kl) = s.latch .decrypt da dl ka kl := rfl
end accept

section resetBy
variable (s : State)

@[simp] theorem resetBy_cfg : s.resetBy.cfg = s.cfg := rfl
@[simp] theorem resetBy_seq : s.resetBy.seq = .idle := rfl
@[simp] theorem resetBy_op : s.resetBy.op = .encrypt := rfl
@[simp] theorem resetBy_dataAddr : s.resetBy.dataAddr = 0 := rfl
@[simp] theorem resetBy_dataLen : s.resetBy.dataLen = 0 := rfl
@[simp] theorem resetBy_keyAddr : s.resetBy.keyAddr = 0 := rfl
@[simp] theorem resetBy_keyLen : s.resetBy.keyLen = 0 := rfl
@[simp] theorem resetBy_key : s.resetBy.key = State.reset.key := rfl
@[simp] theorem resetBy_sum : s.resetBy.sum = 0 := rfl
@[simp] theorem resetBy_y : s.resetBy.y = 0 := rfl
@[simp] theorem resetBy_z : s.resetBy.z = 0 := rfl
@[simp] theorem resetBy_nw : s.resetBy.nw = 0 := rfl
@[simp] theorem resetBy_n : s.resetBy.n = 0 := rfl
@[simp] theorem resetBy_p : s.resetBy.p = 0 := rfl
@[simp] theorem resetBy_rnd : s.resetBy.rnd = 0 := rfl
@[simp] theorem resetBy_errCode : s.resetBy.errCode = 0 := rfl
@[simp] theorem resetBy_errInfo : s.resetBy.errInfo = 0 := rfl
@[simp] theorem resetBy_port : s.resetBy.port = none := rfl
@[simp] theorem resetBy_turns : s.resetBy.turns = s.turns := rfl

theorem resetBy_mem_of_not_busy (h : ¬ s.seq.busy) : s.resetBy.mem = s.mem := if_neg h
theorem resetBy_mem_of_busy (h : s.seq.busy) :
    s.resetBy.mem = scramble s.cfg s.mem s.dataAddr s.dataLen s.free := if_pos h
end resetBy

section withFetchWord
variable (s : State) (nbits w : Nat)

@[simp] theorem withFetchWord_cfg : (s.withFetchWord nbits w).cfg = s.cfg := rfl
@[simp] theorem withFetchWord_seq : (s.withFetchWord nbits w).seq = .idle := rfl
@[simp] theorem withFetchWord_op : (s.withFetchWord nbits w).op = s.op := rfl
@[simp] theorem withFetchWord_dataAddr : (s.withFetchWord nbits w).dataAddr = s.dataAddr := rfl
@[simp] theorem withFetchWord_dataLen : (s.withFetchWord nbits w).dataLen = s.dataLen := rfl
@[simp] theorem withFetchWord_keyAddr : (s.withFetchWord nbits w).keyAddr = s.keyAddr := rfl
@[simp] theorem withFetchWord_keyLen : (s.withFetchWord nbits w).keyLen = s.keyLen := rfl
@[simp] theorem withFetchWord_key : (s.withFetchWord nbits w).key = s.key := rfl
@[simp] theorem withFetchWord_sum : (s.withFetchWord nbits w).sum = s.sum := rfl
@[simp] theorem withFetchWord_y : (s.withFetchWord nbits w).y = s.y := rfl
@[simp] theorem withFetchWord_z : (s.withFetchWord nbits w).z = s.z := rfl
@[simp] theorem withFetchWord_nw : (s.withFetchWord nbits w).nw = s.nw := rfl
@[simp] theorem withFetchWord_n : (s.withFetchWord nbits w).n = s.n := rfl
@[simp] theorem withFetchWord_p : (s.withFetchWord nbits w).p = s.p := rfl
@[simp] theorem withFetchWord_rnd : (s.withFetchWord nbits w).rnd = s.rnd := rfl
@[simp] theorem withFetchWord_errCode : (s.withFetchWord nbits w).errCode = s.errCode := rfl
@[simp] theorem withFetchWord_errInfo : (s.withFetchWord nbits w).errInfo = s.errInfo := rfl
@[simp] theorem withFetchWord_mem : (s.withFetchWord nbits w).mem = s.mem := rfl
@[simp] theorem withFetchWord_port : (s.withFetchWord nbits w).port = some (w % 2 ^ nbits) := rfl
@[simp] theorem withFetchWord_turns : (s.withFetchWord nbits w).turns = [] := rfl
@[simp] theorem withFetchWord_free : (s.withFetchWord nbits w).free = s.free := rfl
end withFetchWord

/-- STATE reads BUSY exactly at the nine busy positions (R32). -/
theorem status_busy_iff (q : Seq) : q.status = .busy ↔ q.busy := by cases q <;> decide

end Sys2Proof.Machine
end

