-- ==== Sys2Proof/Laws/Ops.lean ====
section
/-! SUPPORT. What each shared operation can do, said once: the memory port, the first violation, the regions, the word
update of a mix step. -/

namespace Sys2Proof.Machine

-- One theorem at a time, to keep within the memory of a check.
set_option Elab.async false

/-! ## The memory port -/

theorem atPort_carried {cfg : Config} {a : Nat} (h : portCarries cfg a) (r : Result) : atPort cfg a r = r := by
  unfold atPort
  rw [if_neg (by simp [h.1]), if_neg (by simp [h.2])]

theorem atPort_next {cfg : Config} {a : Nat} {r : Result} {t : State} (h : atPort cfg a r = .next t) :
    portCarries cfg a ∧ r = .next t := by
  unfold atPort at h
  split at h
  · cases h
  · split at h
    · cases h
    · next h1 h2 => exact ⟨⟨by simpa using h1, by omega⟩, h⟩

theorem loadWord_carried {s : State} {a : Nat} (h : portCarries s.cfg a) (rest : Word → Result) :
    loadWord s a rest = rest (s.mem.readWord s.cfg.byteOrder a) := atPort_carried h _

theorem loadWord_next {s t : State} {a : Nat} {rest : Word → Result} (h : loadWord s a rest = .next t) :
    portCarries s.cfg a ∧ rest (s.mem.readWord s.cfg.byteOrder a) = .next t := atPort_next h

theorem storeWord_carried {s : State} {a : Nat} (h : portCarries s.cfg a) (w : Word) (rest : State → Result) :
    storeWord s a w rest = rest { s with mem := s.mem.writeWord s.cfg.byteOrder a w } := atPort_carried h _

theorem storeWord_next {s t : State} {a : Nat} {w : Word} {rest : State → Result}
    (h : storeWord s a w rest = .next t) :
    portCarries s.cfg a ∧ rest { s with mem := s.mem.writeWord s.cfg.byteOrder a w } = .next t := atPort_next h

/-! ## The preconditions and the regions -/

/-- CHECK passes exactly when the five preconditions hold (R133). -/
theorem firstViolation_eq_none {da dl ka kl : Nat} :
    firstViolation da dl ka kl = none ↔ PreconditionsHold da dl ka kl := by
  unfold firstViolation
  constructor
  · intro h
    split at h; · cases h
    split at h; · cases h
    split at h; · cases h
    split at h; · cases h
    split at h; · cases h
    exact ⟨by omega, by omega, by omega, by omega, by simp only [wordCount]; omega⟩
  · rintro ⟨h1, h2, h3, h4, h5⟩
    simp only [wordCount] at h5
    simp [h1, h2, h3, h4, Nat.not_lt.mpr h5]

/-- A violation's code is 1 to 5 (R145). -/
theorem firstViolation_code {da dl ka kl : Nat} {code : BitVec 3} {info : Nat}
    (h : firstViolation da dl ka kl = some (code, info)) :
    code ∈ [1#3, 2#3, 3#3, 4#3, 5#3] ∧ (info = da ∨ info = dl ∨ info = ka ∨ info = kl) := by
  unfold firstViolation at h
  repeat' split at h
  all_goals cases h
  all_goals simp

section regions
variable {cfg : Config} {da dl ka kl : Nat} {rest : Result}

theorem refuseRegions_ok (h : RegionsInSpec cfg da dl ka kl) (rest : Result) :
    refuseRegions cfg da dl ka kl rest = rest := by
  unfold refuseRegions
  rw [if_neg (not_not.mpr h.dataHeld), if_neg (not_not.mpr h.keyHeld), if_neg h.disjoint]

theorem refuseRegions_next {t : State} (h : refuseRegions cfg da dl ka kl rest = .next t) :
    RegionsInSpec cfg da dl ka kl ∧ rest = .next t := by
  unfold refuseRegions at h
  split at h; · cases h
  split at h; · cases h
  split at h; · cases h
  next h1 h2 h3 => exact ⟨⟨not_not.mp h1, not_not.mp h2, h3⟩, h⟩

theorem refuseRegions_wraps (h : ¬ holdsRegion cfg da dl ∨ ¬ holdsRegion cfg ka kl) :
    refuseRegions cfg da dl ka kl rest = .refused .regionWraps := by
  unfold refuseRegions
  split
  · rfl
  · next hd => exact if_pos (h.resolve_left hd)

theorem refuseRegions_meet (hd : holdsRegion cfg da dl) (hk : holdsRegion cfg ka kl)
    (h : regionsMeet da dl ka kl) : refuseRegions cfg da dl ka kl rest = .refused .regionsOverlap := by
  unfold refuseRegions
  rw [if_neg (not_not.mpr hd), if_neg (not_not.mpr hk), if_pos h]

end regions

/-! ## The word update of a mix step -/

/-- The state after the word update of a forward mix step with its right neighbour at index `q` (R103, R104). -/
def forwardUpdate (s : State) (q : Nat) : State :=
  let w := s.dataWord s.p + s.mixValue (s.dataWord q) s.z
  { s with mem := s.mem.writeWord s.cfg.byteOrder (s.dataWordAddr s.p) w, y := s.dataWord q, z := w }

/-- The state after the word update of an inverse mix step with its left neighbour at index `q` (R119, R120). -/
def inverseUpdate (s : State) (q : Nat) : State :=
  let w := s.dataWord s.p - s.mixValue s.y (s.dataWord q)
  { s with mem := s.mem.writeWord s.cfg.byteOrder (s.dataWordAddr s.p) w, z := s.dataWord q, y := w }

theorem mixForward_carried {s : State} {q : Nat} (hq : portCarries s.cfg (s.dataWordAddr q))
    (hp : portCarries s.cfg (s.dataWordAddr s.p)) (after : State → State) :
    mixForward s q after = .next (after (forwardUpdate s q)) := by
  unfold mixForward
  rw [loadWord_carried hq, loadWord_carried hp, storeWord_carried hp]
  rfl

theorem mixForward_next {s t : State} {q : Nat} {after : State → State} (h : mixForward s q after = .next t) :
    portCarries s.cfg (s.dataWordAddr q) ∧ portCarries s.cfg (s.dataWordAddr s.p)
      ∧ t = after (forwardUpdate s q) := by
  have hq := (loadWord_next h).1
  have hp := (loadWord_next (loadWord_next h).2).1
  rw [mixForward_carried hq hp] at h
  exact ⟨hq, hp, by cases h; rfl⟩

theorem mixInverse_carried {s : State} {q : Nat} (hq : portCarries s.cfg (s.dataWordAddr q))
    (hp : portCarries s.cfg (s.dataWordAddr s.p)) (after : State → State) :
    mixInverse s q after = .next (after (inverseUpdate s q)) := by
  unfold mixInverse
  rw [loadWord_carried hq, loadWord_carried hp, storeWord_carried hp]
  rfl

theorem mixInverse_next {s t : State} {q : Nat} {after : State → State} (h : mixInverse s q after = .next t) :
    portCarries s.cfg (s.dataWordAddr q) ∧ portCarries s.cfg (s.dataWordAddr s.p)
      ∧ t = after (inverseUpdate s q) := by
  have hq := (loadWord_next h).1
  have hp := (loadWord_next (loadWord_next h).2).1
  rw [mixInverse_carried hq hp] at h
  exact ⟨hq, hp, by cases h; rfl⟩

end Sys2Proof.Machine
end

