-- ==== Sys2Proof/Laws/PerInstr.lean ====
section
/-! SUPPORT. Statements for all commands, made per command: a well-formed command's descriptor has at most the
descriptor's width (spec/30_encoding.md R67, R68). -/

namespace Sys2Proof.Laws

-- One theorem at a time, to keep within the memory of a check.
set_option Elab.async false

/-- Four fields of `w` bits and OP pack into `4*w + 1` bits. -/
theorem pack_lt {cfg : Config} {op da dl ka kl : Nat} (ho : op < 2) (h : OperandsFit cfg da dl ka kl) :
    pack cfg op da dl ka kl < 2 ^ cfg.descriptorBits := by
  obtain ⟨h1, h2, h3, h4⟩ := h
  simp only [pack, Config.descriptorBits, Config.space] at *
  generalize hx : 2 ^ cfg.addrW = x at *
  have e1 : 2 ^ (cfg.addrW + 1) = x * 2 := by rw [Nat.pow_succ, hx]
  have e2 : 2 ^ (2 * cfg.addrW + 1) = x * x * 2 := by rw [Nat.pow_succ, Nat.two_mul, Nat.pow_add, hx]
  have e3 : 2 ^ (3 * cfg.addrW + 1) = x * x * x * 2 := by
    rw [Nat.pow_succ, show 3 * cfg.addrW = cfg.addrW + cfg.addrW + cfg.addrW by omega, Nat.pow_add, Nat.pow_add, hx]
  have e4 : 2 ^ (4 * cfg.addrW + 1) = x * x * x * x * 2 := by
    rw [Nat.pow_succ, show 4 * cfg.addrW = cfg.addrW + cfg.addrW + cfg.addrW + cfg.addrW by omega, Nat.pow_add,
      Nat.pow_add, Nat.pow_add, hx]
  rw [e1, e2, e3, e4]
  have k4 : (kl + 1) * (x * x * x) ≤ x * (x * x * x) := Nat.mul_le_mul_right _ h4
  have k3 : (ka + 1) * (x * x) ≤ x * (x * x) := Nat.mul_le_mul_right _ h3
  have k2 : (dl + 1) * x ≤ x * x := Nat.mul_le_mul_right _ h2
  nlinarith

namespace EncodeFits

/-- The family: the encoded command fits the descriptor. -/
def Statement (i : Instr) : Prop := ∀ cfg : Config, i.wellFormed cfg = true → encode cfg i < 2 ^ cfg.descriptorBits

theorem encrypt (da dl ka kl : Nat) : Statement (.encrypt da dl ka kl) := fun _ h =>
  pack_lt (by decide) (of_decide_eq_true h)

theorem decrypt (da dl ka kl : Nat) : Statement (.decrypt da dl ka kl) := fun _ h =>
  pack_lt (by decide) (of_decide_eq_true h)

end EncodeFits

end Sys2Proof.Laws
end

