-- ==== Sys2Proof/Laws/Sequencer.lean ====
section
/-! SUPPORT. What one step of the sequencer can do, row by row of the table R31, and how a run is made of steps. -/

namespace Sys2Proof.Machine

-- One theorem at a time, to keep within the memory of a check.
set_option Elab.async false

/-- The rows of R31 with their effects: `SeqRow s t` when a step of the sequencer takes `s` to `t`. -/
inductive SeqRow (s : State) : State → Prop
  | accept (d : Nat) (i : Instr) (hs : s.seq = .idle) (hp : s.port = some d) (hd : decode s.cfg d = .ok i) :
      SeqRow s (s.accept i)
  | rest (hs : s.seq = .idle) (hp : s.port = none) : SeqRow s s
  | violation (code : BitVec 3) (info : Nat) (hs : s.seq = .check)
      (hv : firstViolation s.dataAddr s.dataLen s.keyAddr s.keyLen = some (code, info)) : SeqRow s (s.raise code info)
  | valid (hs : s.seq = .check) (hv : PreconditionsHold s.dataAddr s.dataLen s.keyAddr s.keyLen) :
      SeqRow s (s.goto .keyload)
  | keyload (hs : s.seq = .keyload) (hr : RegionsInSpec s.cfg s.dataAddr s.dataLen s.keyAddr s.keyLen) :
      SeqRow s { s with key := s.keyWordsAt s.keyAddr, seq := s.op.firstStep }
  | fInit (hs : s.seq = .fInit) (hc : portCarries s.cfg (s.dataWordAddr (wordCount s.dataLen - 1))) :
      SeqRow s { s with
        nw := wordCount s.dataLen, n := wordCount s.dataLen - 1, rnd := roundCount (wordCount s.dataLen)
        sum := 0, z := s.dataWord (wordCount s.dataLen - 1), seq := .fRound }
  | fRoundOn (hs : s.seq = .fRound) (hr : s.rnd ≠ 0) :
      SeqRow s { s with sum := s.sum + delta, rnd := s.rnd - 1, p := 0, seq := .fMix }
  | fRoundEnd (hs : s.seq = .fRound) (hr : s.rnd = 0) : SeqRow s (s.goto .idle)
  | fMixOn (hs : s.seq = .fMix) (hp : s.p < s.n) (hq : portCarries s.cfg (s.dataWordAddr (s.p + 1)))
      (hc : portCarries s.cfg (s.dataWordAddr s.p)) :
      SeqRow s { forwardUpdate s (s.p + 1) with p := s.p + 1, seq := .fMix }
  | fMixEnd (hs : s.seq = .fMix) (hp : s.p = s.n) (hq : portCarries s.cfg (s.dataWordAddr 0))
      (hc : portCarries s.cfg (s.dataWordAddr s.p)) : SeqRow s { forwardUpdate s 0 with seq := .fRound }
  | iInit (hs : s.seq = .iInit) (hc : portCarries s.cfg (s.dataWordAddr 0)) :
      SeqRow s { s with
        nw := wordCount s.dataLen, n := wordCount s.dataLen - 1, rnd := roundCount (wordCount s.dataLen)
        sum := terminalSum (roundCount (wordCount s.dataLen)), y := s.dataWord 0, seq := .iTest }
  | iTestOn (hs : s.seq = .iTest) (hz : s.sum ≠ 0) : SeqRow s { s with p := s.n, seq := .iMix }
  | iTestEnd (hs : s.seq = .iTest) (hz : s.sum = 0) : SeqRow s (s.goto .idle)
  | iMixOn (hs : s.seq = .iMix) (hp : 0 < s.p) (hq : portCarries s.cfg (s.dataWordAddr (s.p - 1)))
      (hc : portCarries s.cfg (s.dataWordAddr s.p)) :
      SeqRow s { inverseUpdate s (s.p - 1) with p := s.p - 1, seq := .iMix }
  | iMixEnd (hs : s.seq = .iMix) (hp : s.p = 0) (hq : portCarries s.cfg (s.dataWordAddr s.n))
      (hc : portCarries s.cfg (s.dataWordAddr s.p)) : SeqRow s { inverseUpdate s s.n with seq := .iNext }
  | iNext (hs : s.seq = .iNext) : SeqRow s { s with sum := s.sum - delta, seq := .iTest }
  | stopped (hs : s.seq = .fault) : SeqRow s s

/-- A step of the sequencer that answers a next state is a row of R31. -/
theorem seqStep_row {s t : State} (h : seqStep s = .next t) : SeqRow s t := by
  cases hs : s.seq <;> simp only [seqStep, hs] at h
  case idle =>
    unfold stepIdle at h
    split at h
    · next hp => cases h; exact .rest hs hp
    · next d hp =>
      split at h
      · next i hd => cases h; exact .accept d i hs hp hd
      · cases h
  case check =>
    unfold stepCheck at h
    split at h
    · next code info hv => cases h; exact .violation code info hs hv
    · next hv => cases h; exact .valid hs (firstViolation_eq_none.mp hv)
  case keyload =>
    obtain ⟨hr, h⟩ := refuseRegions_next h
    have h := (loadWord_next (loadWord_next (loadWord_next (loadWord_next h).2).2).2).2
    cases h
    exact .keyload hs hr
  case fInit =>
    obtain ⟨hc, h⟩ := loadWord_next h
    cases h
    exact .fInit hs hc
  case fRound =>
    unfold stepFRound at h
    split at h
    · next hr => cases h; exact .fRoundOn hs hr
    · next hr => cases h; exact .fRoundEnd hs (not_not.mp hr)
  case fMix =>
    unfold stepFMix at h
    split at h
    · next hp =>
      obtain ⟨hq, hc, rfl⟩ := mixForward_next h
      exact .fMixOn hs hp hq hc
    · split at h
      · next hp =>
        obtain ⟨hq, hc, rfl⟩ := mixForward_next h
        exact .fMixEnd hs hp hq hc
      · cases h
  case iInit =>
    obtain ⟨hc, h⟩ := loadWord_next h
    cases h
    exact .iInit hs hc
  case iTest =>
    unfold stepITest at h
    split at h
    · next hz => cases h; exact .iTestOn hs hz
    · next hz => cases h; exact .iTestEnd hs (not_not.mp hz)
  case iMix =>
    unfold stepIMix at h
    split at h
    · next hp =>
      obtain ⟨hq, hc, rfl⟩ := mixInverse_next h
      exact .iMixOn hs hp hq hc
    · next hp =>
      obtain ⟨hq, hc, rfl⟩ := mixInverse_next h
      exact .iMixEnd hs (by omega) hq hc
  case iNext =>
    cases h
    exact .iNext hs
  case fault =>
    cases h
    exact .stopped hs

/-- When STATE is not BUSY a step of the sequencer accepts a command or is no step (R129, R157). -/
theorem seqStep_of_not_busy {s t : State} (hb : ¬ s.seq.busy) (h : seqStep s = .next t) :
    (∃ d i, s.seq = .idle ∧ s.port = some d ∧ decode s.cfg d = .ok i ∧ t = s.accept i) ∨ t = s := by
  cases seqStep_row h
  case accept d i hi hp hd => exact .inl ⟨d, i, hi, hp, hd, rfl⟩
  case rest => exact .inr rfl
  case stopped => exact .inr rfl
  all_goals exact absurd ⟨by simp only [*]; decide, by simp only [*]; decide⟩ hb

/-- The key words lie at carried addresses, once the preconditions and the premises on the regions hold. -/
theorem keyWord_carried {cfg : Config} {da dl ka kl i : Nat} (hp : PreconditionsHold da dl ka kl)
    (hr : RegionsInSpec cfg da dl ka kl) (hi : i < 4) : portCarries cfg (ka + 4 * i) := by
  have := hp.keyAligned; have := hp.keyLen; have := hr.keyHeld
  simp only [holdsRegion] at *
  exact ⟨by omega, by omega⟩

/-- The data words lie at carried addresses, likewise. -/
theorem dataWord_carried {cfg : Config} {da dl ka kl p : Nat} (hp : PreconditionsHold da dl ka kl)
    (hr : RegionsInSpec cfg da dl ka kl) (hi : p < wordCount dl) : portCarries cfg (da + 4 * p) := by
  have := hp.dataAligned; have := hp.dataLen; have := hr.dataHeld
  simp only [holdsRegion, wordCount] at *
  exact ⟨by omega, by omega⟩

/-! ## Runs -/

@[simp] theorem andThen_next (s : State) (f : State → Result) : andThen (.next s) f = f s := rfl

theorem andThen_eq_next {r : Result} {f : State → Result} {t : State} (h : andThen r f = .next t) :
    ∃ s, r = .next s ∧ f s = .next t := by
  cases r with
  | next s => exact ⟨s, rfl, h⟩
  | fault q => cases h
  | refused q => cases h

/-- What follows an access follows it through the memory port. -/
theorem andThen_atPort (cfg : Config) (a : Nat) (r : Result) (f : State → Result) :
    andThen (atPort cfg a r) f = atPort cfg a (andThen r f) := by
  unfold atPort
  split
  · rfl
  · split <;> rfl

theorem andThen_refuseRegions (cfg : Config) (da dl ka kl : Nat) (r : Result) (f : State → Result) :
    andThen (refuseRegions cfg da dl ka kl r) f = refuseRegions cfg da dl ka kl (andThen r f) := by
  unfold refuseRegions
  split
  · rfl
  · split
    · rfl
    · split <;> rfl

theorem andThen_ite (c : Prop) [Decidable c] (r r' : Result) (f : State → Result) :
    andThen (if c then r else r') f = if c then andThen r f else andThen r' f := by
  split <;> rfl

theorem ticks_succ (k : Nat) (s : State) : ticks (k + 1) s = andThen (seqStep s) (ticks k) := rfl

theorem ticks_add (j k : Nat) (s : State) : ticks (j + k) s = andThen (ticks j s) (ticks k) := by
  induction j generalizing s with
  | zero => simp [ticks]
  | succ j ih =>
    rw [Nat.add_right_comm, ticks_succ, ticks_succ]
    cases seqStep s with
    | next t => exact ih t
    | fault q => rfl
    | refused q => rfl

/-- A property that every step keeps is kept by a run. -/
theorem ticks_induct {P : State → Prop} (hstep : ∀ s t, P s → seqStep s = .next t → P t) {k : Nat} {s t : State}
    (hs : P s) (h : ticks k s = .next t) : P t := by
  induction k generalizing s with
  | zero => cases h; exact hs
  | succ k ih =>
    obtain ⟨u, hu, h⟩ := andThen_eq_next h
    exact ih (hstep s u hs hu) h

theorem runBusy_succ (k : Nat) (s : State) :
    runBusy (k + 1) s = if s.seq.busy then andThen (seqStep s) (runBusy k) else .next s := rfl

theorem runBusy_of_not_busy {s : State} (h : ¬ s.seq.busy) (k : Nat) : runBusy k s = .next s := by
  cases k with
  | zero => rfl
  | succ k => exact if_neg h

/-- A property that every step of a BUSY engine keeps is kept by the run of a command. -/
theorem runBusy_induct {P : State → Prop} (hstep : ∀ s t, P s → s.seq.busy → seqStep s = .next t → P t)
    {k : Nat} {s t : State} (hs : P s) (h : runBusy k s = .next t) : P t := by
  induction k generalizing s with
  | zero => cases h; exact hs
  | succ k ih =>
    rw [runBusy_succ] at h
    split at h
    · next hb =>
      obtain ⟨u, hu, h⟩ := andThen_eq_next h
      exact ih (hstep s u hs hb hu) h
    · cases h; exact hs

/-- While STATE stays BUSY, the run of a command is the steps of the sequencer. -/
theorem runBusy_eq_ticks {k : Nat} {s : State}
    (h : ∀ j, j < k → ∀ u, ticks j s = .next u → u.seq.busy) : runBusy k s = ticks k s := by
  induction k generalizing s with
  | zero => rfl
  | succ k ih =>
    rw [runBusy_succ, if_pos (h 0 (by omega) s rfl), ticks_succ]
    cases hs : seqStep s with
    | next t =>
      exact ih fun j hj u hu => h (j + 1) (by omega) u (by rw [ticks_succ, hs]; exact hu)
    | fault q => rfl
    | refused q => rfl

/-- What a command can do: accepted by an idle engine and run; or of no effect on a BUSY one. -/
theorem runCommand_next {i : Instr} {k : Nat} {s t : State} (h : runCommand i k s = .next t) :
    (s.seq = .idle ∧ runBusy k (s.accept i) = .next t) ∨ (s.seq.busy ∧ t = s) := by
  unfold runCommand at h
  split at h
  · next hs => exact .inl ⟨hs, h⟩
  · next hs =>
    split at h
    · cases h
    · next hf => cases h; exact .inr ⟨⟨hs, hf⟩, rfl⟩

theorem exec_next {i : Instr} {s t : State} (h : exec i s = .next t) :
    (s.seq = .idle ∧ ∃ k, runBusy k (s.accept i) = .next t) ∨ (s.seq.busy ∧ t = s) := by
  cases i with
  | encrypt da dl ka kl => exact (runCommand_next h).imp (fun h => ⟨h.1, _, h.2⟩) id
  | decrypt da dl ka kl => exact (runCommand_next h).imp (fun h => ⟨h.1, _, h.2⟩) id

/-- A property kept by acceptance and by every step of a BUSY engine is kept by a command. -/
theorem exec_induct {P : State → Prop} (haccept : ∀ s i, P s → s.seq = .idle → P (s.accept i))
    (hstep : ∀ s t, P s → s.seq.busy → seqStep s = .next t → P t) {i : Instr} {s t : State} (hs : P s)
    (h : exec i s = .next t) : P t := by
  rcases exec_next h with ⟨hi, k, h⟩ | ⟨-, rfl⟩
  · exact runBusy_induct hstep (haccept s i hs hi) h
  · exact hs

/-! ## Steps of the machine -/

/-- What the engine left alone can do. -/
theorem engineAlone_next {s t : State} (h : engineAlone s = .next t) :
    (s.seq = .idle ∧ s.port = none ∧ t = s)
      ∨ (∃ d i, s.seq = .idle ∧ s.port = some d ∧ decode s.cfg d = .ok i ∧ exec i s = .next t)
      ∨ (s.seq.busy ∧ seqStep s = .next t) := by
  unfold engineAlone at h
  split at h
  · next hi =>
    split at h
    · next hp => cases h; exact .inl ⟨hi, hp, rfl⟩
    · next d hp =>
      split at h
      · next i hd => exact .inr (.inl ⟨d, i, hi, hp, hd, h⟩)
      · cases h
  · next hi =>
    split at h
    · cases h
    · next hf => exact .inr (.inr ⟨⟨hi, hf⟩, h⟩)

theorem hostAccess_next {s t done : State} {a : Nat} {allowed : Prop} [Decidable allowed]
    (h : hostAccess s a allowed done = .next t) : a < s.cfg.space ∧ allowed ∧ t = done := by
  unfold hostAccess at h
  split at h
  · cases h
  · next ha =>
    split at h
    · cases h
    · next hb => cases h; exact ⟨Nat.lt_of_not_le ha, not_not.mp hb, rfl⟩

/-- A property that says nothing of the schedule, and that each thing either agent can do keeps, is kept by a step. -/
theorem step_induct {P : State → Prop} (hturns : ∀ s q, P s → P { s with turns := q })
    (haccept : ∀ s d i, P s → s.seq = .idle → s.port = some d → decode s.cfg d = .ok i → P (s.accept i))
    (hstep : ∀ s t, P s → s.seq.busy → seqStep s = .next t → P t)
    (hpresent : ∀ s d, P s → d < 2 ^ s.cfg.descriptorBits → P { s with port := some d })
    (hwithdraw : ∀ s, P s → P { s with port := none })
    (hwrite : ∀ s a b, P s → a < s.cfg.space → s.mayWrite a → P { s with mem := s.mem.write a b })
    (hreset : ∀ s, P s → P s.resetBy) {s t : State} (hs : P s) (h : step s = .next t) : P t := by
  have hexec : ∀ {s t : State} {d : Nat} {i : Instr}, P s → s.seq = .idle → s.port = some d →
      decode s.cfg d = .ok i → exec i s = .next t → P t := by
    intro s t d i hs hi hp hd h
    rcases exec_next h with ⟨-, k, h⟩ | ⟨-, rfl⟩
    · exact runBusy_induct hstep (haccept s d i hs hi hp hd) h
    · exact hs
  have halone : ∀ {s t : State}, P s → engineAlone s = .next t → P t := by
    intro s t hs h
    rcases engineAlone_next h with ⟨-, -, rfl⟩ | ⟨d, i, hi, hp, hd, h⟩ | ⟨hb, h⟩
    · exact hs
    · exact hexec hs hi hp hd h
    · exact hstep s t hs hb h
  unfold step at h
  split at h
  · exact halone hs h
  · next turn rest heq =>
    clear heq
    have hs := hturns s rest hs
    cases turn <;> simp only [takeTurn] at h
    case tick =>
      by_cases hb : ({ s with turns := rest } : State).seq.busy
      · exact hstep _ t hs hb h
      · rcases seqStep_of_not_busy hb h with ⟨d, i, hi, hp, hd, rfl⟩ | rfl
        · exact haccept _ d i hs hi hp hd
        · exact hs
    case wait =>
      split at h
      · cases h; exact hs
      · exact halone (hturns _ _ hs) h
    case present d =>
      split at h
      · next hd => cases h; exact hpresent _ d hs hd
      · cases h
    case withdraw => cases h; exact hwithdraw _ hs
    case write a b =>
      obtain ⟨ha, hm, rfl⟩ := hostAccess_next h
      exact hwrite _ a b hs ha hm
    case read a =>
      obtain ⟨-, -, rfl⟩ := hostAccess_next h
      exact hs
    case readStatus => cases h; exact hs
    case reset => cases h; exact hreset _ hs

end Sys2Proof.Machine
end

