-- ==== Sys2Proof/Laws/Transforms.lean ====
section
/-! SUPPORT. The loops of ENC and DEC unrolled once, so that no proof unfolds them: comparing a word with its sum with
DELTA by unfolding is very slow. -/

namespace Sys2Proof.Machine

-- One theorem at a time, to keep within the memory of a check.
set_option Elab.async false

section
variable (kxz : Bool) (k : KeyFile) (n count : Nat) (v : List Word) (z y sum : Word)

theorem encRounds_zero : encRounds kxz k n 0 v z sum = (v, z, sum) := rfl

/-- The first round, then the others. -/
theorem encRounds_succ : encRounds kxz k n (count + 1) v z sum =
    encRounds kxz k n count (encRound kxz k n v z sum).1 (encRound kxz k n v z sum).2.1
      (encRound kxz k n v z sum).2.2 := Function.iterate_succ_apply _ _ _

theorem encRound_sum : (encRound kxz k n v z sum).2.2 = sum + delta := rfl

theorem encMix_length (w : Word) (p : Nat) : (encMix kxz k sum v z p w).1.length = v.length := List.length_set

theorem decRounds_zero : decRounds kxz k n 0 v y sum = (v, y, sum) := rfl

/-- The loop ends when the checksum is zero. -/
theorem decRounds_done : decRounds kxz k n count v y 0 = (v, y, 0) := by
  cases count with
  | zero => rfl
  | succ count => rw [decRounds, if_pos rfl]

variable {sum} in
/-- Otherwise one round, then the others. -/
theorem decRounds_succ (h : sum ≠ 0) : decRounds kxz k n (count + 1) v y sum =
    decRounds kxz k n count (decRound kxz k n v y sum).1 (decRound kxz k n v y sum).2.1
      (decRound kxz k n v y sum).2.2 := by
  conv_lhs => rw [decRounds, if_neg h]

theorem decInner_zero : decInner kxz k sum 0 v y = (v, y) := rfl

theorem decInner_succ (p : Nat) : decInner kxz k sum (p + 1) v y =
    decInner kxz k sum p (decMix kxz k sum v y (p + 1) (v.getD p 0)).1
      (decMix kxz k sum v y (p + 1) (v.getD p 0)).2 := by
  rw [decInner]

theorem decRound_sum : (decRound kxz k n v y sum).2.2 = sum - delta := rfl

theorem decMix_length (w : Word) (p : Nat) : (decMix kxz k sum v y p w).1.length = v.length := List.length_set

end

/-- `(r + 1) * DELTA` is `r * DELTA + DELTA` (R95). -/
theorem terminalSum_succ (r : Nat) : terminalSum (r + 1) = terminalSum r + delta := by
  simp only [terminalSum, BitVec.ofNat_add, BitVec.add_mul]
  congr 1

/-! ## A mix step and the update it makes -/

/-- A forward mix step updates the data words as steps 3c and 3d of R98 do. -/
theorem forwardUpdate_words {s : State} {q : Nat} (hp : s.p < wordCount s.dataLen) (hq : q < wordCount s.dataLen) :
    ((forwardUpdate s q).dataWordsAt s.dataAddr s.dataLen, (forwardUpdate s q).z) =
      encMix s.cfg.keyXorZ s.key s.sum (s.dataWordsAt s.dataAddr s.dataLen) s.z s.p
        ((s.dataWordsAt s.dataAddr s.dataLen).getD q 0) := by
  have e : ∀ r, r < wordCount s.dataLen → (s.dataWordsAt s.dataAddr s.dataLen).getD r 0 = s.dataWord r :=
    fun r hr => words_getD hr 0
  unfold encMix
  rw [e _ hp, e _ hq]
  exact Prod.ext (words_writeWord _ _ _ _ _ _ hp) rfl

/-- An inverse mix step updates the data words as steps 2b and 2c of R114 do. -/
theorem inverseUpdate_words {s : State} {q : Nat} (hp : s.p < wordCount s.dataLen) (hq : q < wordCount s.dataLen) :
    ((inverseUpdate s q).dataWordsAt s.dataAddr s.dataLen, (inverseUpdate s q).y) =
      decMix s.cfg.keyXorZ s.key s.sum (s.dataWordsAt s.dataAddr s.dataLen) s.y s.p
        ((s.dataWordsAt s.dataAddr s.dataLen).getD q 0) := by
  have e : ∀ r, r < wordCount s.dataLen → (s.dataWordsAt s.dataAddr s.dataLen).getD r 0 = s.dataWord r :=
    fun r hr => words_getD hr 0
  unfold decMix
  rw [e _ hp, e _ hq]
  exact Prod.ext (words_writeWord _ _ _ _ _ _ hp) rfl

/-! ## Runs during which STATE is BUSY -/

/-- `k` steps from `s` to `t`, STATE being BUSY before each. -/
structure BusyRun (k : Nat) (s t : State) : Prop where
  run : ticks k s = .next t
  busy : ∀ j, j < k → ∃ u, ticks j s = .next u ∧ u.seq.busy

theorem BusyRun.refl (s : State) : BusyRun 0 s s := ⟨rfl, fun j h => absurd h (Nat.not_lt_zero j)⟩

theorem BusyRun.single {s t : State} (hb : s.seq.busy) (h : seqStep s = .next t) : BusyRun 1 s t := by
  refine ⟨by rw [ticks_succ, h]; rfl, fun j hj => ⟨s, ?_, hb⟩⟩
  rw [show j = 0 by omega]
  rfl

theorem BusyRun.trans {j k : Nat} {s t u : State} (h : BusyRun j s t) (h' : BusyRun k t u) : BusyRun (j + k) s u := by
  refine ⟨by rw [ticks_add, h.run]; exact h'.run, fun i hi => ?_⟩
  by_cases hij : i < j
  · exact h.busy i hij
  · obtain ⟨v, hv, hb⟩ := h'.busy (i - j) (by omega)
    exact ⟨v, by rw [show i = j + (i - j) by omega, ticks_add, h.run]; exact hv, hb⟩

/-- The run of a command is its steps. -/
theorem BusyRun.runBusy {k : Nat} {s t : State} (h : BusyRun k s t) : runBusy k s = .next t := by
  rw [runBusy_eq_ticks, h.run]
  intro j hj u hu
  obtain ⟨v, hv, hb⟩ := h.busy j hj
  rw [hv] at hu
  cases hu
  exact hb

end Sys2Proof.Machine
end

