-- ==== Sys2Proof/Tests/Slice0.lean ====
section
/-! SUPPORT. Tests. The values come from spec/ (the rule or vector is named), written out by hand. Then, for every
statement that has hypotheses, a state and operands that meet them all: for each clause, at a boundary value. -/

namespace Sys2Proof.Tests

-- One theorem at a time, to keep within the memory of a check.
set_option Elab.async false

open Sys2Proof.Machine

/-! ## Well-formedness: an ill-formed operand in each field is refused -/

theorem test_wellFormed_refuses_encrypt_dataAddr :
    (Instr.encrypt 0x100000000 0 0 0).wellFormed Config.examples = false := by decide
theorem test_wellFormed_refuses_encrypt_dataLen :
    (Instr.encrypt 0 0x100000000 0 0).wellFormed Config.examples = false := by decide
theorem test_wellFormed_refuses_encrypt_keyAddr :
    (Instr.encrypt 0 0 0x100000000 0).wellFormed Config.examples = false := by decide
theorem test_wellFormed_refuses_encrypt_keyLen :
    (Instr.encrypt 0 0 0 0x100000000).wellFormed Config.examples = false := by decide
theorem test_wellFormed_refuses_decrypt_dataAddr :
    (Instr.decrypt 0x100000000 0 0 0).wellFormed Config.examples = false := by decide
theorem test_wellFormed_refuses_decrypt_dataLen :
    (Instr.decrypt 0 0x100000000 0 0).wellFormed Config.examples = false := by decide
theorem test_wellFormed_refuses_decrypt_keyAddr :
    (Instr.decrypt 0 0 0x100000000 0).wellFormed Config.examples = false := by decide
theorem test_wellFormed_refuses_decrypt_keyLen :
    (Instr.decrypt 0 0 0 0x100000000).wellFormed Config.examples = false := by decide
/-- Every operand that fits is accepted, a misaligned address and a bad length too (R77). -/
theorem test_wellFormed_accepts :
    (Instr.encrypt 0xFFFFFFFF 0xFFFFFFFF 0xFFFFFFFF 0xFFFFFFFF).wellFormed Config.examples = true
      ∧ (Instr.decrypt 0xFFFFFFFF 0xFFFFFFFF 0xFFFFFFFF 0xFFFFFFFF).wellFormed Config.examples = true := by decide

/-! ## Decoding, from words written out by R68 -/

/-- Whether a decoding is a given command. -/
def decodesTo (r : Except DecodeError Instr) (i : Instr) : Bool :=
  match r with
  | .ok j => decide (j = i)
  | .error _ => false

/-- Why a decoding is none. -/
def rejects (r : Except DecodeError Instr) (e : DecodeError) : Bool :=
  match r with
  | .ok _ => false
  | .error f => decide (f = e)

/-- Parameters with the narrowest address of R9, so that a descriptor is 17 bits. -/
def narrow : Config := { addrW := 4, byteOrder := .little, keyXorZ := false }

/-- `k` x4, `a` x4, `l` x4, `d` x4, OP, bit 16 first (R68, R76). -/
theorem test_decode_encrypt_bits :
    decodesTo (decode narrow 0b1011_0110_1101_0011_0) (.encrypt 0b0011 0b1101 0b0110 0b1011) = true := by decide
theorem test_decode_decrypt_bits :
    decodesTo (decode narrow 0b0001_1000_0111_1110_1) (.decrypt 0b1110 0b0111 0b1000 0b0001) = true := by decide
/-- The lowest and the highest bit of each field, one at a time (R68). -/
theorem test_decode_field_edges :
    decodesTo (decode narrow 0b0000_0000_0000_0001_0) (.encrypt 1 0 0 0)
      ∧ decodesTo (decode narrow 0b0000_0000_0000_1000_0) (.encrypt 8 0 0 0)
      ∧ decodesTo (decode narrow 0b0000_0000_0001_0000_0) (.encrypt 0 1 0 0)
      ∧ decodesTo (decode narrow 0b0000_0000_1000_0000_0) (.encrypt 0 8 0 0)
      ∧ decodesTo (decode narrow 0b0000_0001_0000_0000_0) (.encrypt 0 0 1 0)
      ∧ decodesTo (decode narrow 0b0000_1000_0000_0000_0) (.encrypt 0 0 8 0)
      ∧ decodesTo (decode narrow 0b0001_0000_0000_0000_0) (.encrypt 0 0 0 1)
      ∧ decodesTo (decode narrow 0b1000_0000_0000_0000_0) (.encrypt 0 0 0 8) := by decide
/-- R67: bit `4*ADDR_W + 1` and above belong to no descriptor. -/
theorem test_decode_too_wide : rejects (decode narrow 0b1_0000_0000_0000_0000_0) .tooWide = true := by decide
/-- R82, with `ADDR_W = 32`. -/
theorem test_decode_worked :
    decodesTo (decode Config.examples 0x00000020000040000000004000002000) (.encrypt 0x1000 32 0x2000 16)
      ∧ decodesTo (decode Config.examples 0x00000020000040000000004000002001) (.decrypt 0x1000 32 0x2000 16) := by decide
/-- The descriptors of vectors B3, B5, B9 and B10. -/
theorem test_decode_vectors :
    decodesTo (decode Config.examples 0x0000001E000040020000004000002004) (.encrypt 0x1002 32 0x2001 15)
      ∧ decodesTo (decode Config.examples 0x00000020000040020000004000002001) (.decrypt 0x1000 32 0x2001 16)
      ∧ decodesTo (decode Config.examples 0x0000001E000040020000003C00002004) (.encrypt 0x1002 30 0x2001 15)
      ∧ decodesTo (decode Config.examples 0x00000030000040000000004000002001) (.decrypt 0x1000 32 0x2000 24) := by decide
/-- The byte form (log 9): the first byte is the least significant; other lengths and a set padding bit are refused. -/
theorem test_decode_bytes :
    decodesTo (decodeBytes narrow [0b1010_0110#8, 0b0110_1101#8, 0b1#8]) (.encrypt 0b0011 0b1101 0b0110 0b1011)
      ∧ rejects (decodeBytes narrow [0#8, 0#8]) .tooFewBytes
      ∧ rejects (decodeBytes narrow [0#8, 0#8, 0#8, 0#8]) .tooManyBytes
      ∧ rejects (decodeBytes narrow [0#8, 0#8, 2#8]) .tooWide := by decide
/-- The rows of spec/opcode_table.json, with operand words of zeros. -/
theorem test_decode_table_rows :
    decodeTableWord 1 0 = some (.encrypt 0 0 0 0) ∧ decodeTableWord 1 1 = some (.decrypt 0 0 0 0)
      ∧ decodeTableWord 136 0x00000020000040000000004000002001 = some (.decrypt 0x1000 32 0x2000 16) := by decide

/-! ## Memory and the reset -/

theorem test_reset_memory_wf : State.reset.mem.wf := by decide
/-- The example of R49: bytes `00 01 02 03`. -/
theorem test_word_of_bytes :
    wordOfBytes .little 0x00 0x01 0x02 0x03 = 0x03020100#32 ∧ wordOfBytes .big 0x00 0x01 0x02 0x03 = 0x00010203#32 := by
  decide
/-- Writing what an unlisted address reads as removes the entry. -/
theorem test_write_removes :
    Memory.write [(3, 7#8), (5, 9#8)] 5 0 = [(3, 7#8)] ∧ Memory.write [(3, 7#8), (5, 9#8)] 4 1 = [(3, 7#8), (4, 1#8), (5, 9#8)] := by
  decide

/-! ## Steps of a running command, from the traces of F1 and I1 (R112, R128) -/

/-- An engine at a position of a command on two words at 0x1000, with the key at 0x2000. -/
def engineAt (q : Seq) (o : Op) : State :=
  { State.reset with seq := q, op := o, dataAddr := 0x1000, dataLen := 8, keyAddr := 0x2000, keyLen := 16 }

/-- F1 before its first mix step (the row of step 5), all data and key bytes 00. -/
def beforeMix : State :=
  { engineAt .fMix .encrypt with sum := 0x9E3779B9#32, z := 0, nw := 2, n := 1, p := 0, rnd := 31 }

/-- I1 before its first mix step (the row of step 5): data words `B74B03B6 6FE8C718`. -/
def beforeUnmix : State :=
  { engineAt .iMix .decrypt with
    sum := 0xC6EF3720#32, y := 0xB74B03B6#32, nw := 2, n := 1, p := 1, rnd := 32
    mem := [(0x1000, 0xB6), (0x1001, 0x03), (0x1002, 0x4B), (0x1003, 0xB7)]
      ++ [(0x1004, 0x18), (0x1005, 0xC7), (0x1006, 0xE8), (0x1007, 0x6F)] }

/-- A property of the state that an outcome answers, false if it answers none. -/
def answers (r : Result) (f : State → Bool) : Bool :=
  match r with
  | .next t => f t
  | .fault _ => false
  | .refused _ => false

theorem answers_next {r : Result} {f : State → Bool} (h : answers r f = true) : ∃ t, r = .next t ∧ f t = true := by
  cases r with
  | next t => exact ⟨t, rfl, h⟩
  | fault q => cases h
  | refused q => cases h

/-- The row of step 6 of F1: `Y = 0`, `Z = 9E3779B9`, `P = 1`, data words `9E3779B9 00000000`. -/
theorem test_encrypt_first_mix_step :
    answers (seqStep beforeMix) (fun t => t.seq = .fMix ∧ t.y = 0 ∧ t.z = 0x9E3779B9#32 ∧ t.p = 1
      ∧ t.dataWordsAt 0x1000 8 = [0x9E3779B9#32, 0#32]) = true := by decide +kernel
/-- The row of step 6 of I1: `Y = 249D41CB`, `Z = B74B03B6`, `P = 0`, data words `B74B03B6 249D41CB`. -/
theorem test_decrypt_first_mix_step :
    answers (seqStep beforeUnmix) (fun t => t.seq = .iMix ∧ t.y = 0x249D41CB#32 ∧ t.z = 0xB74B03B6#32 ∧ t.p = 0
      ∧ t.dataWordsAt 0x1000 8 = [0xB74B03B6#32, 0x249D41CB#32]) = true := by decide +kernel

/-! ## Whole commands -/

/-- Key words `k` of spec/95 at 0x2000 under `little`, and three data words at 0x1000. -/
def threeWords (data : Memory) : State :=
  { State.reset with
    mem := data ++ [(0x2000, 0x67), (0x2001, 0x45), (0x2002, 0x23), (0x2003, 0x01)]
      ++ [(0x2004, 0xEF), (0x2005, 0xCD), (0x2006, 0xAB), (0x2007, 0x89)]
      ++ [(0x2008, 0x98), (0x2009, 0xBA), (0x200A, 0xDC), (0x200B, 0xFE)]
      ++ [(0x200C, 0x10), (0x200D, 0x32), (0x200E, 0x54), (0x200F, 0x76)] }

/-- Vector F3, in bytes as spec/95 gives them under `little` (action 4 of P4), and the count of steps 97 = 1 + 96. -/
theorem test_encrypt_F3 :
    answers (exec (.encrypt 0x1000 12 0x2000 16)
      (threeWords ([(0x1000, 0xEF), (0x1001, 0xBE), (0x1002, 0xAD), (0x1003, 0xDE)]
        ++ [(0x1004, 0xBE), (0x1005, 0xBA), (0x1006, 0xFE), (0x1007, 0xCA)])))
      (fun t => t.seq = .idle ∧ t.mem.readBytes 0x1000 12 =
        [0x9E, 0x1F, 0x08, 0x4E, 0x42, 0xF2, 0x84, 0x05, 0x11, 0x6C, 0x67, 0x8C]) = true := by decide +kernel
/-- Vector I6: an altered ciphertext raises no fault; words `B84DC68E AF975970 7BCDAD3B`. -/
theorem test_decrypt_I6 :
    answers (exec (.decrypt 0x1000 12 0x2000 16)
      (threeWords ([(0x1000, 0x9E), (0x1001, 0x1F), (0x1002, 0x08), (0x1003, 0x4E)]
        ++ [(0x1004, 0x42), (0x1005, 0xF2), (0x1006, 0x84), (0x1007, 0x05)]
        ++ [(0x1008, 0x10), (0x1009, 0x6C), (0x100A, 0x67), (0x100B, 0x8C)])))
      (fun t => t.seq = .idle ∧ t.errCode = 0
        ∧ t.dataWordsAt 0x1000 12 = [0xB84DC68E#32, 0xAF975970#32, 0x7BCDAD3B#32]) = true := by decide +kernel

/-- The faulting rows B2 to B10: code and value. -/
theorem test_fault_rows :
    firstViolation 0x1000 30 0x2000 16 = some (1, 30) ∧ firstViolation 0x1002 32 0x2001 15 = some (2, 0x1002)
      ∧ firstViolation 0x1000 32 0x2001 15 = some (3, 15) ∧ firstViolation 0x1000 32 0x2001 16 = some (4, 0x2001)
      ∧ firstViolation 0x1000 4 0x2000 16 = some (5, 4) ∧ firstViolation 0x1000 0 0x2000 16 = some (5, 0)
      ∧ firstViolation 0x1000 6 0x2000 16 = some (1, 6) ∧ firstViolation 0x1002 30 0x2001 15 = some (1, 30)
      ∧ firstViolation 0x1000 32 0x2000 24 = some (3, 24) ∧ firstViolation 0x1000 8 0x2000 16 = none := by decide

/-- P3, actions 1 to 3: the fault, the command not accepted, the reset. -/
theorem test_fault_is_sticky_and_reset_recovers :
    answers (step { State.reset with
        seq := .fault, errCode := 1, errInfo := 30, port := some 0x00000020000040000000004000002000
        turns := [.wait, .reset] })
      (fun t => t.seq = .fault ∧ t.errCode = 1 ∧ t.errInfo = 30 ∧ t.turns = [.reset]
        ∧ answers (step t) (fun u => u.seq = .idle ∧ u.errCode = 0 ∧ u.errInfo = 0)) = true := by decide +kernel

/-! ## Witnesses -/

/-- An idle engine with the descriptor of a command at its port. -/
def presented (d : Nat) : State := { State.reset with port := some d }

theorem pre_two_words : PreconditionsHold 0x1000 8 0x2000 16 :=
  ⟨by decide, by decide, by decide, by decide, by decide⟩
theorem regions_two_words : RegionsInSpec Config.examples 0x1000 8 0x2000 16 := ⟨by decide, by decide, by decide⟩
/-- Two words at the top of the address space, the key right below them. -/
theorem pre_top : PreconditionsHold 0xFFFFFFF8 8 0xFFFFFFE8 16 := ⟨by decide, by decide, by decide, by decide, by decide⟩
theorem regions_top : RegionsInSpec Config.examples 0xFFFFFFF8 8 0xFFFFFFE8 16 := ⟨by decide, by decide, by decide⟩
theorem canRun_reset : CanRun State.reset 0x1000 8 0x2000 16 := ⟨rfl, pre_two_words, regions_two_words⟩
theorem canRun_top : CanRun State.reset 0xFFFFFFF8 8 0xFFFFFFE8 16 := ⟨rfl, pre_top, regions_top⟩

theorem witness_DecodeInvertsEncode :
    (Instr.encrypt 15 15 15 15).wellFormed narrow = true ∧ (Instr.decrypt 0 0 0 0).wellFormed narrow = true := by decide

theorem witness_EveryDescriptorIsOneCommand :
    (0 < 2 ^ (4 * narrow.addrW + 1) ∧ 0 % 2 = 0)
      ∧ (2 ^ 17 - 1 < 2 ^ (4 * narrow.addrW + 1) ∧ (2 ^ 17 - 1) % 2 = 1) ∧ 2 ^ (4 * narrow.addrW + 1) ≤ 2 ^ 17 := by decide

theorem witness_WorkedEncodingsDecode : Config.examples.addrW = 32 := rfl

theorem witness_StepRunsPresentedCommand :
    (∃ (s : State) (d : Nat) (i : Instr),
      s.turns = [] ∧ s.seq = .idle ∧ s.port = some d ∧ decode s.cfg d = .ok i)
    ∧ ∃ (s : State) (nbits w : Nat) (i : Instr), decode s.cfg (w % 2 ^ nbits) = .ok i :=
  ⟨⟨presented 1, 1, .decrypt 0 0 0 0, rfl, rfl, rfl, rfl⟩, ⟨State.reset, 1, 1, .decrypt 0 0 0 0, rfl⟩⟩

theorem witness_PresentationByState :
    State.reset.seq = .idle ∧ decode State.reset.cfg 0 = .ok (.encrypt 0 0 0 0)
      ∧ (engineAt .fMix .encrypt).seq ≠ .idle ∧ (engineAt .fMix .encrypt).seq ≠ .fault
      ∧ (engineAt .fault .encrypt).seq = .fault := ⟨rfl, rfl, by decide, by decide, rfl⟩

theorem witness_AcceptanceLatchesDescriptor :
    ((presented 0).seq = .idle ∧ (presented 0).port = some 0 ∧ decode (presented 0).cfg 0 = .ok (.encrypt 0 0 0 0))
      ∧ (presented 1).seq = .idle ∧ (presented 1).port = some 1 ∧ decode (presented 1).cfg 1 = .ok (.decrypt 0 0 0 0) :=
  ⟨⟨rfl, rfl, rfl⟩, rfl, rfl, rfl⟩

/-- A latched command in CHECK. -/
def checking (da dl ka kl : Nat) : State :=
  { State.reset with seq := .check, dataAddr := da, dataLen := dl, keyAddr := ka, keyLen := kl }

theorem witness_CheckStepDecides :
    (checking 1 9 1 15).dataLen % 4 ≠ 0
      ∧ ((checking 3 8 1 15).dataLen % 4 = 0 ∧ (checking 3 8 1 15).dataAddr % 4 ≠ 0)
      ∧ ((checking 4 8 1 17).dataLen % 4 = 0 ∧ (checking 4 8 1 17).dataAddr % 4 = 0 ∧ (checking 4 8 1 17).keyLen ≠ 16)
      ∧ ((checking 4 8 3 16).dataLen % 4 = 0 ∧ (checking 4 8 3 16).dataAddr % 4 = 0 ∧ (checking 4 8 3 16).keyLen = 16
        ∧ (checking 4 8 3 16).keyAddr % 4 ≠ 0)
      ∧ ((checking 4 4 4 16).dataLen % 4 = 0 ∧ (checking 4 4 4 16).dataAddr % 4 = 0 ∧ (checking 4 4 4 16).keyLen = 16
        ∧ (checking 4 4 4 16).keyAddr % 4 = 0 ∧ (checking 4 4 4 16).dataLen / 4 < 2)
      ∧ ((checking 4 8 4 16).dataLen % 4 = 0 ∧ (checking 4 8 4 16).dataAddr % 4 = 0 ∧ (checking 4 8 4 16).keyLen = 16
        ∧ (checking 4 8 4 16).keyAddr % 4 = 0 ∧ 2 ≤ (checking 4 8 4 16).dataLen / 4) := by decide

theorem witness_FaultingCommandChangesNothingElse :
    State.reset.seq = .idle ∧ firstViolation 0x1000 4 0x2000 16 = some (5#3, 4) := by decide

theorem witness_RegionsOutsideSpecAreRefused :
    State.reset.seq = .idle
      ∧ (PreconditionsHold 0xFFFFFFFC 8 0 16 ∧ State.reset.cfg.space < 0xFFFFFFFC + 8)
      ∧ (PreconditionsHold 0 8 0xFFFFFFF4 16 ∧ State.reset.cfg.space < 0xFFFFFFF4 + 16)
      ∧ PreconditionsHold 0x100 8 0x104 16 ∧ 0x100 + 8 ≤ State.reset.cfg.space ∧ 0x104 + 16 ≤ State.reset.cfg.space
      ∧ 0x100 < 0x104 + 16 ∧ 0x104 < 0x100 + 8 :=
  ⟨rfl, ⟨⟨by decide, by decide, by decide, by decide, by decide⟩, by decide⟩,
    ⟨⟨by decide, by decide, by decide, by decide, by decide⟩, by decide⟩,
    ⟨by decide, by decide, by decide, by decide, by decide⟩, by decide, by decide, by decide, by decide⟩

theorem witness_FaultIsSticky :
    ∃ s t : State, s.seq = .fault ∧ s.turns = [.write 0xFFFFFFFF 1] ∧ Turn.write 0xFFFFFFFF 1 ≠ .reset
      ∧ step s = .next t :=
  ⟨{ engineAt .fault .encrypt with turns := [.write 0xFFFFFFFF 1] }, _, rfl, rfl, by decide, rfl⟩

/-- A turn that is no write, for the last clause. -/
theorem witness_FaultIsSticky_no_write :
    ∃ s t : State, s.seq = .fault ∧ s.turns = [.tick] ∧ Turn.tick ≠ .reset ∧ step s = .next t
      ∧ ∀ a b, Turn.tick ≠ .write a b :=
  ⟨{ engineAt .fault .encrypt with turns := [.tick] }, _, rfl, rfl, by decide, rfl, fun _ _ h => by cases h⟩

theorem witness_FaultIsSticky_reset : ({ engineAt .fault .encrypt with turns := [.reset] } : State).turns = [.reset] := rfl

theorem witness_FaultStopsTheMachine :
    (engineAt .fault .encrypt).seq = .fault ∧ (engineAt .fault .encrypt).turns = [] := ⟨rfl, rfl⟩

theorem witness_ResetInAnyState :
    ∃ s : State, s.turns = [.reset] ∧ s.seq.status ≠ .busy ∧ ¬ (s.dataAddr ≤ 0x1008 ∧ 0x1008 < s.dataAddr + s.dataLen) :=
  ⟨{ engineAt .fault .encrypt with turns := [.reset] }, rfl, by decide, by decide⟩

theorem witness_EncryptCompletes : CanRun State.reset 0xFFFFFFF8 8 0xFFFFFFE8 16 := canRun_top
theorem witness_DecryptCompletes : CanRun State.reset 0xFFFFFFF8 8 0xFFFFFFE8 16 := canRun_top

theorem witness_ForwardStepsComputeEnc :
    (engineAt .fInit .encrypt).seq = .fInit ∧ PreconditionsHold 0x1000 8 0x2000 16
      ∧ RegionsInSpec (engineAt .fInit .encrypt).cfg 0x1000 8 0x2000 16 := ⟨rfl, pre_two_words, regions_two_words⟩
theorem witness_InverseStepsComputeDec :
    (engineAt .iInit .decrypt).seq = .iInit ∧ PreconditionsHold 0x1000 8 0x2000 16
      ∧ RegionsInSpec (engineAt .iInit .decrypt).cfg 0x1000 8 0x2000 16 := ⟨rfl, pre_two_words, regions_two_words⟩

theorem witness_RoundTrip : 2 ≤ [0#32, 0#32].length ∧ CanRun State.reset 0x1000 8 0x2000 16 :=
  ⟨by decide, canRun_reset⟩
theorem witness_InverseRoundUndoesForwardRound : [1#32, 2#32].length = 1 + 1 ∧ 1 ≤ 1 := by decide
theorem witness_ForwardRoundIsCyclic : [1#32].length = 0 + 1 ∧ [1#32, 2#32].length = 1 + 1 := by decide
theorem witness_InverseRoundIsCyclic : [1#32].length = 0 + 1 ∧ [1#32, 2#32].length = 1 + 1 := by decide

/-- The descriptors of B11 and of the same DECRYPT, and a faulting one (B6). -/
theorem witness_StepCounts :
    (decode Config.examples 0x00000020000040000000001000002000 = .ok (.encrypt 0x1000 8 0x2000 16)
        ∧ CanRun (presented 0x00000020000040000000001000002000) 0x1000 8 0x2000 16)
      ∧ (decode Config.examples 0x00000020000040000000001000002001 = .ok (.decrypt 0x1000 8 0x2000 16)
        ∧ CanRun (presented 0x00000020000040000000001000002001) 0x1000 8 0x2000 16)
      ∧ decode Config.examples 0x00000020000040000000000800002001 = .ok (.decrypt 0x1000 4 0x2000 16)
      ∧ ¬ PreconditionsHold 0x1000 4 0x2000 16 :=
  ⟨⟨rfl, rfl, pre_two_words, regions_two_words⟩, ⟨rfl, rfl, pre_two_words, regions_two_words⟩, rfl,
    fun h => absurd h.twoWords (by decide)⟩

theorem witness_CommandEndsInOneOfTwoWays :
    State.reset.seq = .idle ∧ (PreconditionsHold 0x1000 8 0x2000 16 → RegionsInSpec State.reset.cfg 0x1000 8 0x2000 16)
      ∧ (PreconditionsHold 0x1000 4 0x2000 16 → RegionsInSpec State.reset.cfg 0x1000 4 0x2000 16) :=
  ⟨rfl, fun _ => regions_two_words, fun h => absurd h.twoWords (by decide)⟩

theorem witness_CommandWritesOnlyItsDataRegion :
    (∃ t, exec (.encrypt 0x1000 8 0x2000 16) State.reset = .next t ∧ (t.seq = .idle : Bool) = true)
      ∧ ∃ t, exec (.decrypt 0x1000 4 0x2000 16) State.reset = .next t ∧ (t.seq = .fault : Bool) = true :=
  ⟨answers_next (by decide +kernel), answers_next (by decide +kernel)⟩

theorem witness_ResultIgnoresLeftovers :
    ∃ s₁ s₂ t₁ : State, s₁.seq = .idle ∧ s₂.seq = .idle ∧ s₁.cfg = s₂.cfg ∧ s₁.mem = s₂.mem ∧ s₁.errCode = 0
      ∧ s₂.errCode = 0 ∧ s₁.errInfo = 0 ∧ s₂.errInfo = 0 ∧ s₁ ≠ s₂
      ∧ exec (.encrypt 0x1000 8 0x2000 16) s₁ = .next t₁ := by
  obtain ⟨t, ht, -⟩ := answers_next (r := exec (.encrypt 0x1000 8 0x2000 16) State.reset) (f := fun _ => true)
    (by decide +kernel)
  exact ⟨State.reset, { State.reset with z := 1, rnd := 5 }, t, rfl, rfl, rfl, rfl, rfl, rfl, rfl, rfl, by decide, ht⟩

theorem witness_StepsIgnoreDataAndKey :
    ∃ (s₁ s₂ u₁ : State), s₁.seq = .idle ∧ s₂.seq = .idle ∧ s₁.cfg.addrW = s₂.cfg.addrW
      ∧ ticks 5 (s₁.accept (.encrypt 0x1000 8 0x2000 16)) = .next u₁ ∧ u₁.seq.inPass ∧ u₁.seq = .fMix := by
  obtain ⟨t, ht, hq⟩ := answers_next (r := ticks 5 (State.reset.accept (.encrypt 0x1000 8 0x2000 16)))
    (f := fun t => t.seq = .fMix) (by decide +kernel)
  have hq : t.seq = .fMix := by simpa using hq
  exact ⟨State.reset, { State.reset with mem := [(0x1000, 1)] }, t, rfl, rfl, rfl, ht, by rw [hq]; decide, hq⟩

/-- Two keys that agree on the word picked at position 3 by selector 2, which is K[1], and nowhere else. -/
theorem witness_KeyLookup :
    KeyFile.get ⟨1, 2, 3, 4⟩ (keyIndex 3 2) = KeyFile.get ⟨5, 2, 7, 8⟩ (keyIndex 3 2) := by decide

theorem witness_RoundCountTable : 2 ≤ 2 ∧ 2 ≤ 53 := by decide

theorem witness_SequencerFollowsItsTable : ∃ t, seqStep (engineAt .iNext .decrypt) = .next t := ⟨_, rfl⟩

theorem witness_KeyloadStep :
    (engineAt .keyload .decrypt).seq = .keyload ∧ PreconditionsHold 0x1000 8 0x2000 16
      ∧ RegionsInSpec (engineAt .keyload .decrypt).cfg 0x1000 8 0x2000 16 := ⟨rfl, pre_two_words, regions_two_words⟩

theorem witness_ForwardInitAndRoundSteps :
    ((engineAt .fInit .encrypt).seq = .fInit ∧ portCarries Config.examples (0x1000 + 4 * (8 / 4 - 1)))
      ∧ (∃ s : State, s.seq = .fRound ∧ s.rnd ≠ 0) ∧ ∃ s : State, s.seq = .fRound ∧ s.rnd = 0 :=
  ⟨⟨rfl, by decide⟩, ⟨{ engineAt .fRound .encrypt with rnd := 1 }, rfl, by decide⟩, engineAt .fRound .encrypt, rfl, rfl⟩

theorem witness_ForwardMixSteps :
    (beforeMix.seq = .fMix ∧ portCarries beforeMix.cfg (beforeMix.dataAddr + 4 * beforeMix.p) ∧ beforeMix.p < beforeMix.n
        ∧ portCarries beforeMix.cfg (beforeMix.dataAddr + 4 * (beforeMix.p + 1)))
      ∧ ∃ s : State, s.seq = .fMix ∧ portCarries s.cfg (s.dataAddr + 4 * s.p) ∧ s.p = s.n ∧ portCarries s.cfg s.dataAddr :=
  ⟨⟨rfl, by decide, by decide, by decide⟩, { beforeMix with p := 1 }, rfl, by decide, rfl, by decide⟩

theorem witness_InverseInitTestAndNextSteps :
    ((engineAt .iInit .decrypt).seq = .iInit ∧ portCarries Config.examples 0x1000)
      ∧ (∃ s : State, s.seq = .iTest ∧ s.sum ≠ 0) ∧ (∃ s : State, s.seq = .iTest ∧ s.sum = 0)
      ∧ (engineAt .iNext .decrypt).seq = .iNext :=
  ⟨⟨rfl, by decide⟩, ⟨{ engineAt .iTest .decrypt with sum := 1 }, rfl, by decide⟩, ⟨engineAt .iTest .decrypt, rfl, rfl⟩,
    rfl⟩

theorem witness_InverseMixSteps :
    (beforeUnmix.seq = .iMix ∧ portCarries beforeUnmix.cfg (beforeUnmix.dataAddr + 4 * beforeUnmix.p) ∧ 0 < beforeUnmix.p
        ∧ portCarries beforeUnmix.cfg (beforeUnmix.dataAddr + 4 * (beforeUnmix.p - 1)))
      ∧ ∃ s : State, s.seq = .iMix ∧ portCarries s.cfg (s.dataAddr + 4 * s.p) ∧ s.p = 0
        ∧ portCarries s.cfg (s.dataAddr + 4 * s.n) :=
  ⟨⟨rfl, by decide, by decide, by decide⟩, { beforeUnmix with p := 0 }, rfl, by decide, rfl, by decide⟩

/-- One state is at a position that none of the clauses but the first lists, another at CHECK for the first. -/
theorem witness_OnlyTheListedStepsWrite :
    (∃ t, seqStep (engineAt .check .encrypt) = .next t) ∧ ∃ t, seqStep State.reset = .next t := ⟨⟨_, rfl⟩, _, rfl⟩

theorem witness_MixStepsStoreOneWord :
    (∃ t, seqStep beforeMix = .next t ∧ true = true) ∧ (∃ t, seqStep beforeUnmix = .next t ∧ true = true)
      ∧ beforeMix.seq = .fMix ∧ beforeUnmix.seq = .iMix :=
  ⟨answers_next (f := fun _ => true) (by decide +kernel), answers_next (f := fun _ => true) (by decide +kernel), rfl, rfl⟩

theorem passLawful_beforeMix : beforeMix.PassLawful where
  validated _ := pre_two_words
  regions _ := regions_two_words
  keyFile _ := by decide +kernel
  forwardOp _ := rfl
  inverseOp h := absurd h (by decide)
  counts _ := by decide
  position _ := by decide
  fRound h := absurd h (by decide)
  fMix _ := by decide +kernel
  iTest h := absurd h (by decide)
  iMix h := absurd h (by decide)
  iNext h := absurd h (by decide)

theorem passLawful_beforeUnmix : beforeUnmix.PassLawful where
  validated _ := pre_two_words
  regions _ := regions_two_words
  keyFile _ := by decide +kernel
  forwardOp h := absurd h (by decide)
  inverseOp _ := rfl
  counts _ := by decide
  position _ := by decide
  fRound h := absurd h (by decide)
  fMix h := absurd h (by decide)
  iTest h := absurd h (by decide)
  iMix _ := ⟨by decide +kernel, ⟨32, by decide, by decide, by decide +kernel⟩, by decide +kernel⟩
  iNext h := absurd h (by decide)

theorem lawful_beforeMix : beforeMix.Lawful where
  cfg := by decide
  widths := ⟨by decide +kernel, by decide +kernel, by decide +kernel, by decide +kernel, by decide +kernel,
    by decide +kernel, fun _ h => by cases h⟩
  memory := ⟨by decide, by decide⟩
  faults := ⟨fun _ => ⟨rfl, rfl⟩, fun h => absurd h (by decide)⟩
  pass := passLawful_beforeMix

theorem step_beforeMix : ∃ t, step beforeMix = .next t ∧ true = true :=
  answers_next (f := fun _ => true) (by decide +kernel)

theorem witness_TwoWordBufferMixesOneNeighbour :
    (beforeMix.PassLawful ∧ beforeMix.dataLen = 8 ∧ (∃ t, seqStep beforeMix = .next t ∧ true = true) ∧ beforeMix.seq = .fMix)
      ∧ beforeUnmix.PassLawful ∧ beforeUnmix.dataLen = 8 ∧ (∃ t, seqStep beforeUnmix = .next t ∧ true = true)
      ∧ beforeUnmix.seq = .iMix :=
  ⟨⟨passLawful_beforeMix, rfl, answers_next (f := fun _ => true) (by decide +kernel), rfl⟩, passLawful_beforeUnmix, rfl,
    answers_next (f := fun _ => true) (by decide +kernel), rfl⟩

theorem witness_StepKeepsMemoryLawful : beforeMix.MemoryLawful ∧ ∃ t, step beforeMix = .next t ∧ true = true :=
  ⟨lawful_beforeMix.memory, step_beforeMix⟩
theorem witness_StepKeepsWidths :
    beforeMix.cfg.WellFormed ∧ beforeMix.WidthsFit ∧ ∃ t, step beforeMix = .next t ∧ true = true :=
  ⟨lawful_beforeMix.cfg, lawful_beforeMix.widths, step_beforeMix⟩
theorem witness_StepKeepsFaultRecorded : beforeMix.FaultRecorded ∧ ∃ t, step beforeMix = .next t ∧ true = true :=
  ⟨lawful_beforeMix.faults, step_beforeMix⟩
theorem witness_StepKeepsPassLawful : beforeMix.PassLawful ∧ ∃ t, step beforeMix = .next t ∧ true = true :=
  ⟨lawful_beforeMix.pass, step_beforeMix⟩
theorem witness_StepKeepsLawful : beforeMix.Lawful ∧ ∃ t, step beforeMix = .next t ∧ true = true :=
  ⟨lawful_beforeMix, step_beforeMix⟩

theorem witness_RunningCommandNeverStops :
    beforeMix.PassLawful ∧ beforeMix.seq.status = .busy
      ∧ (beforeMix.seq = .keyload →
        RegionsInSpec beforeMix.cfg beforeMix.dataAddr beforeMix.dataLen beforeMix.keyAddr beforeMix.keyLen) :=
  ⟨passLawful_beforeMix, rfl, fun h => absurd h (by decide)⟩

/-- The byte right above the data region. -/
theorem witness_ForeignWriteCommutesWithStep :
    beforeMix.MemoryLawful ∧ beforeMix.PassLawful ∧ beforeMix.seq.status = .busy
      ∧ ¬ (beforeMix.dataAddr ≤ 0x1008 ∧ 0x1008 < beforeMix.dataAddr + beforeMix.dataLen)
      ∧ ¬ (beforeMix.keyAddr ≤ 0x1008 ∧ 0x1008 < beforeMix.keyAddr + beforeMix.keyLen) :=
  ⟨lawful_beforeMix.memory, passLawful_beforeMix, rfl, by decide, by decide⟩

/-- The last byte of each region, and the byte right above it. -/
theorem witness_HostAccessWhileRunning :
    (engineAt .fMix .encrypt).seq.status = .busy ∧ 0x2010 < (engineAt .fMix .encrypt).cfg.space
      ∧ inRegion 0x1000 8 0x1007 ∧ inRegion 0x2000 16 0x200F ∧ ¬ inRegion 0x1000 8 0x1008 ∧ ¬ inRegion 0x1000 8 0x2010
      ∧ ¬ inRegion 0x2000 16 0x2010 := by decide

theorem witness_HostActionsLeaveTheEngineAlone :
    (∃ s t : State, s.turns = [.readStatus] ∧ step s = .next t)
      ∧ ∃ s t : State, s.turns = [.write 0 1] ∧ step s = .next t ∧ s.seq = .fMix :=
  ⟨⟨{ State.reset with turns := [.readStatus] }, _, rfl, rfl⟩,
    { engineAt .fMix .encrypt with turns := [.write 0 1] }, _, rfl, rfl, rfl⟩

end Sys2Proof.Tests
end

section
/-! PROOFS. How a command runs: the steps of the two passes simulate the loops of ENC and DEC on the data words, and a
command ends in completion or in the fault of CHECK (spec/00_scope.md R18). -/

namespace Sys2Proof.Machine

/-! ## The rows of R31, taken -/

/-- The converse of `seqStep_row`: the condition of a row is all that its step needs, but for KEYLOAD, whose loads also
need the preconditions. -/
theorem seqStep_of_row {s t : State} (h : SeqRow s t)
    (hk : s.seq = .keyload → PreconditionsHold s.dataAddr s.dataLen s.keyAddr s.keyLen) : seqStep s = .next t := by
  cases h with
  | accept d i hs hp hd => simp [seqStep, hs, stepIdle, hp, hd]
  | rest hs hp => simp [seqStep, hs, stepIdle, hp]
  | violation code info hs hv => simp [seqStep, hs, stepCheck, hv]
  | valid hs hv => simp [seqStep, hs, stepCheck, firstViolation_eq_none.mpr hv]
  | keyload hs hr =>
    have hc : ∀ i, i < 4 → portCarries s.cfg (s.keyWordAddr i) := fun i hi => keyWord_carried (hk hs) hr hi
    simp only [seqStep, hs, stepKeyload]
    rw [refuseRegions_ok hr, loadWord_carried (hc 0 (by decide)), loadWord_carried (hc 1 (by decide)),
      loadWord_carried (hc 2 (by decide)), loadWord_carried (hc 3 (by decide))]
    rfl
  | fInit hs hc =>
    simp only [seqStep, hs, stepFInit]
    exact loadWord_carried hc _
  | fRoundOn hs hr => simp [seqStep, hs, stepFRound, hr]
  | fRoundEnd hs hr => simp [seqStep, hs, stepFRound, hr]
  | fMixOn hs hp hq hc =>
    simp only [seqStep, hs, stepFMix, if_pos hp]
    exact mixForward_carried hq hc _
  | fMixEnd hs hp hq hc =>
    simp only [seqStep, hs, stepFMix, if_neg (show ¬ s.p < s.n by omega), if_pos hp]
    exact mixForward_carried hq hc _
  | iInit hs hc =>
    simp only [seqStep, hs, stepIInit]
    exact loadWord_carried hc _
  | iTestOn hs hz => simp only [seqStep, hs, stepITest, if_pos hz]
  | iTestEnd hs hz => simp [seqStep, hs, stepITest, hz]
  | iMixOn hs hp hq hc =>
    simp only [seqStep, hs, stepIMix, if_pos hp]
    exact mixInverse_carried hq hc _
  | iMixEnd hs hp hq hc =>
    simp only [seqStep, hs, stepIMix, if_neg (show ¬ 0 < s.p by omega)]
    exact mixInverse_carried hq hc _
  | iNext hs => simp [seqStep, hs, stepINext]
  | stopped hs => simp [seqStep, hs]

/-- A row taken after KEYLOAD is a run of one step. -/
theorem BusyRun.of_row {s t : State} {q : Seq} (hs : s.seq = q) (hq : q.keyed) (h : SeqRow s t) : BusyRun 1 s t := by
  subst hs
  exact .single hq.1.1 (seqStep_of_row h fun hk => absurd hk hq.2)

/-! ## What a pass keeps -/

/-- The data words of the latched command. -/
abbrev State.latchedWords (s : State) : List Word := s.dataWordsAt s.dataAddr s.dataLen

theorem latchedWords_length (s : State) : s.latchedWords.length = wordCount s.dataLen := words_length ..

theorem latchedWords_getD {s : State} {p : Nat} (h : p < wordCount s.dataLen) :
    s.latchedWords.getD p 0 = s.dataWord p := words_getD h 0

/-- From `s` to `t` no register has changed but SEQ and the working registers of a pass, and no byte of memory outside
the data region (R54). -/
structure SamePass (s t : State) : Prop where
  registers : t = { s with
    seq := t.seq, sum := t.sum, y := t.y, z := t.z, p := t.p, rnd := t.rnd, mem := t.mem }
  outside : ∀ a, ¬ inRegion s.dataAddr s.dataLen a → t.mem.read a = s.mem.read a

namespace SamePass
variable {s t u : State}

theorem cfg_eq (h : SamePass s t) : t.cfg = s.cfg := by rw [h.registers]
theorem dataAddr_eq (h : SamePass s t) : t.dataAddr = s.dataAddr := by rw [h.registers]
theorem dataLen_eq (h : SamePass s t) : t.dataLen = s.dataLen := by rw [h.registers]
theorem keyAddr_eq (h : SamePass s t) : t.keyAddr = s.keyAddr := by rw [h.registers]
theorem keyLen_eq (h : SamePass s t) : t.keyLen = s.keyLen := by rw [h.registers]
theorem key_eq (h : SamePass s t) : t.key = s.key := by rw [h.registers]
theorem n_eq (h : SamePass s t) : t.n = s.n := by rw [h.registers]

/-- Steps that leave memory alone. -/
theorem of_mem_eq (h : t = { s with
    seq := t.seq, sum := t.sum, y := t.y, z := t.z, p := t.p, rnd := t.rnd, mem := s.mem }) : SamePass s t := by
  have hm : t.mem = s.mem := by rw [h]
  exact ⟨by rw [hm]; exact h, fun a _ => by rw [hm]⟩

theorem refl (s : State) : SamePass s s := of_mem_eq rfl

theorem trans (h : SamePass s t) (h' : SamePass t u) : SamePass s u := by
  refine ⟨?_, fun a ha => ?_⟩
  · have := h'.registers
    rw [h.registers] at this
    exact this
  · rw [h'.outside a (by rwa [h.dataAddr_eq, h.dataLen_eq]), h.outside a ha]

theorem latchedWords_eq (h : SamePass s t) : t.latchedWords = t.dataWordsAt s.dataAddr s.dataLen := by
  rw [State.latchedWords, h.dataAddr_eq, h.dataLen_eq]

end SamePass

/-- The last index counts the data words, which validation has passed and whose region is in the spec: the premises of
every step of a pass. -/
structure State.PassReady (s : State) : Prop where
  pre : PreconditionsHold s.dataAddr s.dataLen s.keyAddr s.keyLen
  regions : RegionsInSpec s.cfg s.dataAddr s.dataLen s.keyAddr s.keyLen
  count : s.n + 1 = wordCount s.dataLen

namespace State.PassReady
variable {s t : State}

theorem of_samePass (h : s.PassReady) (hs : SamePass s t) : t.PassReady := by
  refine ⟨?_, ?_, ?_⟩
  · rw [hs.dataAddr_eq, hs.dataLen_eq, hs.keyAddr_eq, hs.keyLen_eq]; exact h.pre
  · rw [hs.cfg_eq, hs.dataAddr_eq, hs.dataLen_eq, hs.keyAddr_eq, hs.keyLen_eq]; exact h.regions
  · rw [hs.n_eq, hs.dataLen_eq]; exact h.count

/-- The port carries an access to every data word. -/
theorem carries (h : s.PassReady) {q : Nat} (hq : q ≤ s.n) : portCarries s.cfg (s.dataWordAddr q) :=
  dataWord_carried h.pre h.regions (by have := h.count; omega)

theorem lt_wordCount (h : s.PassReady) {q : Nat} (hq : q ≤ s.n) : q < wordCount s.dataLen := by
  have := h.count; omega

/-- A command has two words at least (R132), so the last index is not the first. -/
theorem n_pos (h : s.PassReady) : 0 < s.n := by
  have := h.count; have := h.pre.twoWords; omega

/-- A store to a data word stays inside the data region (R54). -/
theorem outside_writeWord (h : s.PassReady) {q a : Nat} (hq : q ≤ s.n) (ha : ¬ inRegion s.dataAddr s.dataLen a)
    (w : Word) : (s.mem.writeWord s.cfg.byteOrder (s.dataWordAddr q) w).read a = s.mem.read a := by
  have hlt := h.lt_wordCount hq
  refine read_writeWord_outside ?_
  simp only [inRegion, State.dataWordAddr, wordCount] at *
  omega

end State.PassReady

/-! ## A mix step -/

section
variable (s : State) (q : Nat)

theorem dataWord_forwardUpdate_same : (forwardUpdate s q).dataWord s.p = (forwardUpdate s q).z :=
  readWord_writeWord_same ..

theorem dataWord_forwardUpdate_other {r : Nat} (h : r ≠ s.p) : (forwardUpdate s q).dataWord r = s.dataWord r :=
  readWord_writeWord_other _ _ _ (by simp only [forwardUpdate, State.dataWordAddr]; omega)

theorem dataWord_inverseUpdate_same : (inverseUpdate s q).dataWord s.p = (inverseUpdate s q).y :=
  readWord_writeWord_same ..

theorem dataWord_inverseUpdate_other {r : Nat} (h : r ≠ s.p) : (inverseUpdate s q).dataWord r = s.dataWord r :=
  readWord_writeWord_other _ _ _ (by simp only [inverseUpdate, State.dataWordAddr]; omega)

end

theorem forwardUpdate_samePass {s : State} (h : s.PassReady) (hp : s.p ≤ s.n) (q p : Nat) (o : Seq) :
    SamePass s { forwardUpdate s q with p := p, seq := o } :=
  ⟨rfl, fun _ ha => h.outside_writeWord hp ha _⟩

theorem inverseUpdate_samePass {s : State} (h : s.PassReady) (hp : s.p ≤ s.n) (q p : Nat) (o : Seq) :
    SamePass s { inverseUpdate s q with p := p, seq := o } :=
  ⟨rfl, fun _ ha => h.outside_writeWord hp ha _⟩

/-- The registers at the end of a round: P at the round's last position, and both neighbours as memory holds them. -/
structure State.RoundEnded (s : State) (last : Nat) : Prop where
  p : s.p = last
  y : s.y = s.dataWord 0
  z : s.z = s.dataWord s.n

/-- After the mix step at the last word (R104). -/
theorem forwardUpdate_roundEnded {s : State} (h : s.PassReady) (hp : s.p = s.n) :
    (forwardUpdate s 0).RoundEnded s.n where
  p := hp
  y := (dataWord_forwardUpdate_other s 0 (by have := h.n_pos; omega)).symm
  z := by
    change _ = (forwardUpdate s 0).dataWord s.n
    rw [← hp, dataWord_forwardUpdate_same]

/-- After the mix step at the first word (R120). -/
theorem inverseUpdate_roundEnded {s : State} (h : s.PassReady) (hp : s.p = 0) :
    (inverseUpdate s s.n).RoundEnded 0 where
  p := hp
  y := by rw [← dataWord_inverseUpdate_same, hp]
  z := (dataWord_inverseUpdate_other s s.n (by have := h.n_pos; omega)).symm

/-! ## The forward pass (R101 to R107) -/

/-- The loop of step 3c of R98: `j` steps F_MIX from the first word. -/
theorem fMix_steps {s : State} (h : s.PassReady) (hs : s.seq = .fMix) (hp : s.p = 0) (j : Nat) (hj : j ≤ s.n) :
    ∃ t, BusyRun j s t ∧ SamePass s t ∧ t.seq = .fMix ∧ t.p = j ∧ t.sum = s.sum ∧ t.rnd = s.rnd
      ∧ (t.latchedWords, t.z) = (List.range j).foldl
          (fun c p => encMix s.cfg.keyXorZ s.key s.sum c.1 c.2 p (c.1.getD (p + 1) 0)) (s.latchedWords, s.z) := by
  induction j with
  | zero => exact ⟨s, .refl s, .refl s, hs, hp, rfl, rfl, rfl⟩
  | succ j ih =>
    obtain ⟨t, hrun, hsame, hseq, rfl, hsum, hrnd, hw⟩ := ih (by omega)
    have ht := h.of_samePass hsame
    have hlt : t.p < t.n := by rw [hsame.n_eq]; omega
    have hstep := BusyRun.of_row hseq (by decide)
      (.fMixOn hseq hlt (ht.carries hlt) (ht.carries (Nat.le_of_lt hlt)))
    refine ⟨_, hrun.trans hstep, hsame.trans (forwardUpdate_samePass ht (Nat.le_of_lt hlt) _ _ _), rfl, rfl, hsum,
      hrnd, ?_⟩
    rw [List.range_succ, List.foldl_append, ← hw]
    have hupd := forwardUpdate_words (ht.lt_wordCount (Nat.le_of_lt hlt)) (ht.lt_wordCount (Nat.succ_le_of_lt hlt))
    rw [hsame.cfg_eq, hsame.key_eq, hsum] at hupd
    exact hupd

/-- The steps F_MIX of a round, from the first word to the last (R103, R104): on the data words, a round of R98 that
started with the checksum `sum`. -/
theorem fMix_round {s : State} (h : s.PassReady) (hs : s.seq = .fMix) (hp : s.p = 0) {sum : Word}
    (hsum : s.sum = sum + delta) :
    ∃ t, BusyRun (s.n + 1) s t ∧ SamePass s t ∧ t.seq = .fRound ∧ t.rnd = s.rnd ∧ t.RoundEnded s.n
      ∧ (t.latchedWords, t.z, t.sum) = encRound s.cfg.keyXorZ s.key s.n s.latchedWords s.z sum := by
  obtain ⟨t, hrun, hsame, hseq, hpt, hsumt, hrnd, hw⟩ := fMix_steps h hs hp s.n (Nat.le_refl _)
  have ht := h.of_samePass hsame
  have hpn : t.p = t.n := by rw [hpt, hsame.n_eq]
  have hend := BusyRun.of_row hseq (by decide)
    (.fMixEnd hseq hpn (ht.carries (Nat.zero_le _)) (ht.carries (Nat.le_of_eq hpn)))
  have hended := forwardUpdate_roundEnded ht hpn
  rw [hsame.n_eq] at hended
  refine ⟨_, hrun.trans hend, hsame.trans (forwardUpdate_samePass ht (Nat.le_of_eq hpn) 0 t.p _), rfl, hrnd,
    ⟨hended.p, hended.y, hended.z⟩, ?_⟩
  have hlast := forwardUpdate_words (ht.lt_wordCount (Nat.le_of_eq hpn)) (ht.lt_wordCount (Nat.zero_le _))
  rw [hsame.cfg_eq, hsame.key_eq, hsumt, hpt] at hlast
  simp only [encRound, ← hsum, ← hw]
  rw [← hlast, ← hsumt]
  rfl

/-- One round: F_ROUND and a step F_MIX for each word (R102 to R104). -/
theorem forward_round {s : State} (h : s.PassReady) (hs : s.seq = .fRound) (hr : s.rnd ≠ 0) :
    ∃ t, BusyRun (s.n + 2) s t ∧ SamePass s t ∧ t.seq = .fRound ∧ t.rnd = s.rnd - 1 ∧ t.RoundEnded s.n
      ∧ (t.latchedWords, t.z, t.sum) = encRound s.cfg.keyXorZ s.key s.n s.latchedWords s.z s.sum := by
  have hstart := BusyRun.of_row hs (by decide) (.fRoundOn hs hr)
  have hsame := SamePass.of_mem_eq (s := s)
    (t := { s with sum := s.sum + delta, rnd := s.rnd - 1, p := 0, seq := .fMix }) rfl
  obtain ⟨t, hrun, hsame', hrest⟩ := fMix_round (h.of_samePass hsame) rfl rfl rfl
  refine ⟨t, ?_, hsame.trans hsame', hrest⟩
  rw [show s.n + 2 = 1 + (s.n + 1) by omega]
  exact hstart.trans hrun

/-- All rounds that RND counts, and the end of the pass (R105): `repeat` of R98. A pass with a round to come leaves what
a round leaves. -/
theorem forward_rounds {s : State} (r : Nat) (h : s.PassReady) (hs : s.seq = .fRound) (hr : s.rnd = r)
    (hended : r = 0 → s.RoundEnded s.n) :
    ∃ t, BusyRun (r * (wordCount s.dataLen + 1) + 1) s t ∧ SamePass s t ∧ t.seq = .idle ∧ t.rnd = 0 ∧ t.RoundEnded s.n
      ∧ (t.latchedWords, t.z, t.sum) = encRounds s.cfg.keyXorZ s.key s.n r s.latchedWords s.z s.sum := by
  induction r generalizing s with
  | zero =>
    have hend := BusyRun.of_row hs (by decide) (.fRoundEnd hs hr)
    obtain ⟨hp, hy, hz⟩ := hended rfl
    exact ⟨s.goto .idle, by simpa using hend, .of_mem_eq rfl, rfl, hr, ⟨hp, hy, hz⟩, encRounds_zero .. |>.symm⟩
  | succ r ih =>
    obtain ⟨t, hrun, hsame, hseq, hrnd, hround, hw⟩ := forward_round h hs (by omega)
    obtain ⟨u, hrun', hsame', hidle, hzero, hround', hw'⟩ :=
      ih (h.of_samePass hsame) hseq (by omega) fun _ => by rwa [hsame.n_eq]
    rw [hsame.dataLen_eq] at hrun'
    rw [hsame.n_eq] at hround'
    refine ⟨u, ?_, hsame.trans hsame', hidle, hzero, hround', ?_⟩
    · rw [show (r + 1) * (wordCount s.dataLen + 1) + 1 = s.n + 2 + (r * (wordCount s.dataLen + 1) + 1) by
        rw [← h.count]; ring]
      exact hrun.trans hrun'
    · rw [hw', encRounds_succ, ← hw, hsame.cfg_eq, hsame.key_eq, hsame.n_eq]

/-- NW and N as F_INIT and I_INIT set them (R101, R117). -/
def State.setCounts (s : State) : State := { s with nw := wordCount s.dataLen, n := wordCount s.dataLen - 1 }

theorem setCounts_passReady {s : State} (hp : PreconditionsHold s.dataAddr s.dataLen s.keyAddr s.keyLen)
    (hr : RegionsInSpec s.cfg s.dataAddr s.dataLen s.keyAddr s.keyLen) : s.setCounts.PassReady :=
  ⟨hp, hr, Nat.sub_add_cancel (Nat.le_of_succ_le hp.twoWords)⟩

/-- A command has rounds. -/
theorem roundCount_ne_zero (nWords : Nat) : roundCount nWords ≠ 0 := Nat.ne_of_gt (Nat.add_pos_left (by decide) _)

/-- The checksum grows by DELTA in each round of ENC (R95). -/
theorem encRounds_sum (kxz : Bool) (k : KeyFile) (n count : Nat) (v : List Word) (z sum : Word) :
    (encRounds kxz k n count v z sum).2.2 = sum + terminalSum count := by
  induction count generalizing v z sum with
  | zero => simp [encRounds_zero, terminalSum]
  | succ count ih => rw [encRounds_succ, ih, encRound_sum, terminalSum_succ, BitVec.add_assoc, BitVec.add_comm delta]

/-- The forward pass, from F_INIT to IDLE: ENC on the data words (R107). -/
theorem forward_pass {s : State} (hs : s.seq = .fInit)
    (hp : PreconditionsHold s.dataAddr s.dataLen s.keyAddr s.keyLen)
    (hr : RegionsInSpec s.cfg s.dataAddr s.dataLen s.keyAddr s.keyLen) :
    ∃ t, BusyRun (2 + roundCount (wordCount s.dataLen) * (wordCount s.dataLen + 1)) s t ∧ SamePass s.setCounts t
      ∧ t.seq = .idle ∧ t.rnd = 0 ∧ t.RoundEnded (wordCount s.dataLen - 1)
      ∧ t.sum = terminalSum (roundCount (wordCount s.dataLen))
      ∧ t.latchedWords = enc s.cfg.keyXorZ s.latchedWords s.key := by
  have hready := setCounts_passReady hp hr
  have hcount : wordCount s.dataLen - 1 + 1 = wordCount s.dataLen := hready.count
  have hstart := BusyRun.of_row hs (by decide) (.fInit hs (hready.carries (Nat.le_refl _)))
  have hsame := SamePass.of_mem_eq (s := s.setCounts) (t := { s with
    nw := wordCount s.dataLen, n := wordCount s.dataLen - 1, rnd := roundCount (wordCount s.dataLen)
    sum := 0, z := s.dataWord (wordCount s.dataLen - 1), seq := .fRound }) rfl
  obtain ⟨t, hrun, hsame', hidle, hrnd, hended, hw⟩ := forward_rounds _ (hready.of_samePass hsame) rfl rfl
    fun h0 => absurd h0 (roundCount_ne_zero _)
  refine ⟨t, ?_, hsame.trans hsame', hidle, hrnd, hended, ?_, ?_⟩
  · rw [show ∀ m, 2 + m = 1 + (m + 1) by omega]
    exact hstart.trans hrun
  · have hsum := congrArg (·.2.2) hw
    rw [encRounds_sum] at hsum
    simpa using hsum
  · have hwords := congrArg (·.1) hw
    rw [enc, latchedWords_length, latchedWords_getD (by omega)]
    exact hwords

/-! ## The inverse pass (R117 to R124) -/

/-- The loop of step 2b of R114: the steps I_MIX down to the first word. -/
theorem iMix_steps {s : State} (j : Nat) (h : s.PassReady) (hs : s.seq = .iMix) (hp : s.p = j) (hj : j ≤ s.n) :
    ∃ t, BusyRun j s t ∧ SamePass s t ∧ t.seq = .iMix ∧ t.p = 0 ∧ t.sum = s.sum ∧ t.rnd = s.rnd
      ∧ (t.latchedWords, t.y) = decInner s.cfg.keyXorZ s.key s.sum j s.latchedWords s.y := by
  induction j generalizing s with
  | zero => exact ⟨s, .refl s, .refl s, hs, hp, rfl, rfl, by rw [decInner_zero]⟩
  | succ j ih =>
    have hprev : s.p - 1 = j := by omega
    have hpn : s.p ≤ s.n := by omega
    have hq : s.p - 1 ≤ s.n := by omega
    have hstep := BusyRun.of_row hs (by decide)
      (.iMixOn hs (by omega) (h.carries hq) (h.carries hpn))
    have hsame := inverseUpdate_samePass h hpn (s.p - 1) (s.p - 1) .iMix
    obtain ⟨t, hrun, hsame', hseq, hpt, hsum, hrnd, hw⟩ :=
      ih (h.of_samePass hsame) rfl hprev (by rw [hsame.n_eq]; omega)
    refine ⟨t, ?_, hsame.trans hsame', hseq, hpt, hsum, hrnd, ?_⟩
    · rw [Nat.add_comm j 1]
      exact hstep.trans hrun
    · have hupd := inverseUpdate_words (h.lt_wordCount hpn) (h.lt_wordCount hq)
      rw [hp, Nat.add_sub_cancel] at hupd
      rw [decInner_succ, ← hupd, hw, hp, Nat.add_sub_cancel]
      rfl

/-- The steps of a round after I_TEST has set P: I_MIX for each word and I_NEXT (R119 to R121). -/
theorem iMix_round {s : State} (h : s.PassReady) (hs : s.seq = .iMix) (hp : s.p = s.n) :
    ∃ t, BusyRun (s.n + 2) s t ∧ SamePass s t ∧ t.seq = .iTest ∧ t.rnd = s.rnd ∧ t.RoundEnded 0
      ∧ (t.latchedWords, t.y, t.sum) = decRound s.cfg.keyXorZ s.key s.n s.latchedWords s.y s.sum := by
  obtain ⟨t, hrun, hsame, hseq, hpt, hsum, hrnd, hw⟩ := iMix_steps s.n h hs hp (Nat.le_refl _)
  have ht := h.of_samePass hsame
  have hp0 : t.p ≤ t.n := by omega
  have hfirst := BusyRun.of_row hseq (by decide)
    (.iMixEnd hseq hpt (ht.carries (Nat.le_refl _)) (ht.carries hp0))
  have hnext := BusyRun.of_row (s := { inverseUpdate t t.n with seq := .iNext }) (q := .iNext) rfl (by decide)
    (.iNext rfl)
  have hsame' := inverseUpdate_samePass ht hp0 t.n t.p .iNext
  obtain ⟨hp', hy, hz⟩ := inverseUpdate_roundEnded ht hpt
  refine ⟨_, (hrun.trans hfirst).trans hnext, (hsame.trans hsame').trans (.of_mem_eq rfl), rfl, hrnd,
    ⟨hp', hy, hz⟩, ?_⟩
  have hlast := inverseUpdate_words (ht.lt_wordCount hp0) (ht.lt_wordCount (Nat.le_refl _))
  rw [hsame.cfg_eq, hsame.key_eq, hsum, hpt, hsame.n_eq] at hlast
  simp only [decRound, ← hw]
  rw [← hlast, ← hsum, ← hsame.n_eq]
  rfl

/-- One round: I_TEST, a step I_MIX for each word, and I_NEXT (R118 to R121). -/
theorem inverse_round {s : State} (h : s.PassReady) (hs : s.seq = .iTest) (hz : s.sum ≠ 0) :
    ∃ t, BusyRun (s.n + 3) s t ∧ SamePass s t ∧ t.seq = .iTest ∧ t.rnd = s.rnd ∧ t.RoundEnded 0
      ∧ (t.latchedWords, t.y, t.sum) = decRound s.cfg.keyXorZ s.key s.n s.latchedWords s.y s.sum := by
  have hstart := BusyRun.of_row hs (by decide) (.iTestOn hs hz)
  have hsame := SamePass.of_mem_eq (s := s) (t := { s with p := s.n, seq := .iMix }) rfl
  obtain ⟨t, hrun, hsame', hrest⟩ := iMix_round (h.of_samePass hsame) rfl rfl
  refine ⟨t, ?_, hsame.trans hsame', hrest⟩
  rw [show s.n + 3 = 1 + (s.n + 2) by omega]
  exact hstart.trans hrun

/-- The inverse of DELTA modulo `2^32`. -/
theorem delta_mul_inverse : delta * 0x144CBC89#32 = 1#32 := by decide

/-- R95: the checksum is zero after a multiple of `2^32` rounds only. -/
theorem terminalSum_eq_zero_iff (r : Nat) : terminalSum r = 0 ↔ 2 ^ 32 ∣ r := by
  have hzero : terminalSum r = 0 ↔ BitVec.ofNat 32 r = 0#32 := by
    constructor
    · intro h
      calc BitVec.ofNat 32 r = terminalSum r * 0x144CBC89#32 := by
            rw [terminalSum, BitVec.mul_assoc, delta_mul_inverse, BitVec.mul_one]
        _ = 0#32 := by rw [h]; exact BitVec.zero_mul
    · intro h
      rw [terminalSum, h]
      exact BitVec.zero_mul
  rw [hzero, Nat.dvd_iff_mod_eq_zero, ← BitVec.toNat_inj]
  simp

/-- All rounds until the checksum, `r * DELTA` at first, is zero, and the end of the pass (R122): the `while` of R114. A
pass with a round to come leaves what a round leaves. -/
theorem inverse_rounds {s : State} (r : Nat) (hlt : r < 2 ^ 32) (h : s.PassReady) (hs : s.seq = .iTest)
    (hsum : s.sum = terminalSum r) (hended : r = 0 → s.RoundEnded 0) :
    ∃ t, BusyRun (r * (wordCount s.dataLen + 2) + 1) s t ∧ SamePass s t ∧ t.seq = .idle ∧ t.rnd = s.rnd ∧ t.sum = 0
      ∧ t.RoundEnded 0
      ∧ t.latchedWords = (decRounds s.cfg.keyXorZ s.key s.n r s.latchedWords s.y s.sum).1 := by
  induction r generalizing s with
  | zero =>
    have hz : s.sum = 0 := hsum.trans ((terminalSum_eq_zero_iff 0).mpr (Nat.dvd_zero _))
    have hend := BusyRun.of_row hs (by decide) (.iTestEnd hs hz)
    obtain ⟨hp, hy, hz'⟩ := hended rfl
    exact ⟨s.goto .idle, by simpa using hend, .of_mem_eq rfl, rfl, rfl, hz, ⟨hp, hy, hz'⟩, by
      rw [decRounds_zero]; rfl⟩
  | succ r ih =>
    have hz : s.sum ≠ 0 := by
      rw [hsum, Ne, terminalSum_eq_zero_iff]
      exact Nat.not_dvd_of_pos_of_lt r.succ_pos hlt
    obtain ⟨t, hrun, hsame, hseq, hrnd, hround, hw⟩ := inverse_round h hs hz
    have hsumt : t.sum = terminalSum r := by
      have hsumt : t.sum = s.sum - delta := by
        rw [← decRound_sum s.cfg.keyXorZ s.key s.n s.latchedWords s.y s.sum, ← hw]
      rw [hsumt, hsum, terminalSum_succ, BitVec.add_sub_cancel]
    obtain ⟨u, hrun', hsame', hidle, hrnd', hzero, hround', hw'⟩ :=
      ih (by omega) (h.of_samePass hsame) hseq hsumt fun _ => hround
    rw [hsame.dataLen_eq] at hrun'
    refine ⟨u, ?_, hsame.trans hsame', hidle, by rw [hrnd', hrnd], hzero, hround', ?_⟩
    · rw [show (r + 1) * (wordCount s.dataLen + 2) + 1 = s.n + 3 + (r * (wordCount s.dataLen + 2) + 1) by
        rw [← h.count]; ring]
      exact hrun.trans hrun'
    · rw [hw', decRounds_succ _ _ _ _ _ _ hz, ← hw, hsame.cfg_eq, hsame.key_eq, hsame.n_eq]

/-- A command has far fewer rounds than the checksum needs to come back to zero (R95). -/
theorem roundCount_lt (nWords : Nat) : roundCount nWords < 2 ^ 32 := by
  have := Nat.div_le_self 52 nWords
  unfold roundCount
  omega

/-- The inverse pass, from I_INIT to IDLE: DEC on the data words (R123). -/
theorem inverse_pass {s : State} (hs : s.seq = .iInit)
    (hp : PreconditionsHold s.dataAddr s.dataLen s.keyAddr s.keyLen)
    (hr : RegionsInSpec s.cfg s.dataAddr s.dataLen s.keyAddr s.keyLen) :
    ∃ t, BusyRun (2 + roundCount (wordCount s.dataLen) * (wordCount s.dataLen + 2)) s t ∧ SamePass s.setCounts t
      ∧ t.seq = .idle ∧ t.rnd = roundCount (wordCount s.dataLen) ∧ t.sum = 0 ∧ t.RoundEnded 0
      ∧ t.latchedWords = dec s.cfg.keyXorZ s.latchedWords s.key := by
  have hready := setCounts_passReady hp hr
  have hcount : wordCount s.dataLen - 1 + 1 = wordCount s.dataLen := hready.count
  have hstart := BusyRun.of_row hs (by decide) (.iInit hs (hready.carries (Nat.zero_le _)))
  have hsame := SamePass.of_mem_eq (s := s.setCounts) (t := { s with
    nw := wordCount s.dataLen, n := wordCount s.dataLen - 1, rnd := roundCount (wordCount s.dataLen)
    sum := terminalSum (roundCount (wordCount s.dataLen)), y := s.dataWord 0, seq := .iTest }) rfl
  obtain ⟨t, hrun, hsame', hidle, hrnd, hzero, hended, hw⟩ := inverse_rounds _ (roundCount_lt _)
    (hready.of_samePass hsame) rfl rfl fun h0 => absurd h0 (roundCount_ne_zero _)
  refine ⟨t, ?_, hsame.trans hsame', hidle, hrnd, hzero, hended, ?_⟩
  · rw [show ∀ m, 2 + m = 1 + (m + 1) by omega]
    exact hstart.trans hrun
  · rw [dec, latchedWords_length, latchedWords_getD (by omega)]
    exact hw

/-! ## A command from acceptance to its end -/

section
variable {s : State} {da dl ka kl : Nat}

/-- The engine after CHECK and KEYLOAD of a command that passes both. -/
def State.afterKeyload (s : State) (o : Op) (da dl ka kl : Nat) : State :=
  { s.latch o da dl ka kl with key := s.keyWordsAt ka, seq := o.firstStep }

/-- The front end's two steps, when the command can run (R133, R137). -/
theorem front_end_passes (h : CanRun s da dl ka kl) (o : Op) :
    BusyRun 2 (s.latch o da dl ka kl) (s.afterKeyload o da dl ka kl) := by
  have hcheck := seqStep_of_row (s := s.latch o da dl ka kl) (.valid rfl h.pre) nofun
  have hkeyload := seqStep_of_row (s := (s.latch o da dl ka kl).goto .keyload) (.keyload rfl h.regions) fun _ => h.pre
  exact (BusyRun.single (show Seq.check.busy by decide) hcheck).trans
    (.single (show Seq.keyload.busy by decide) hkeyload)

/-- ENCRYPT of a command that can run (R97): its steps, and what they leave. -/
theorem encrypt_run (h : CanRun s da dl ka kl) :
    ∃ t, BusyRun (encryptTicks (wordCount dl)) (s.latch .encrypt da dl ka kl) t
      ∧ SamePass (s.afterKeyload .encrypt da dl ka kl).setCounts t
      ∧ t.seq = .idle ∧ t.rnd = 0 ∧ t.RoundEnded (wordCount dl - 1) ∧ t.sum = terminalSum (roundCount (wordCount dl))
      ∧ t.dataWordsAt da dl = enc s.cfg.keyXorZ (s.dataWordsAt da dl) (s.keyWordsAt ka) := by
  obtain ⟨t, hrun, hsame, hidle, hrnd, hended, hsum, hw⟩ :=
    forward_pass (s := s.afterKeyload .encrypt da dl ka kl) rfl h.pre h.regions
  refine ⟨t, ?_, hsame, hidle, hrnd, hended, hsum, ?_⟩
  · rw [encryptTicks, show ∀ m, 4 + m = 2 + (2 + m) by omega]
    exact (front_end_passes h .encrypt).trans hrun
  · exact hsame.latchedWords_eq.symm.trans hw

/-- DECRYPT of a command that can run (R113), likewise. -/
theorem decrypt_run (h : CanRun s da dl ka kl) :
    ∃ t, BusyRun (decryptTicks (wordCount dl)) (s.latch .decrypt da dl ka kl) t
      ∧ SamePass (s.afterKeyload .decrypt da dl ka kl).setCounts t
      ∧ t.seq = .idle ∧ t.rnd = roundCount (wordCount dl) ∧ t.sum = 0 ∧ t.RoundEnded 0
      ∧ t.dataWordsAt da dl = dec s.cfg.keyXorZ (s.dataWordsAt da dl) (s.keyWordsAt ka) := by
  obtain ⟨t, hrun, hsame, hidle, hrnd, hzero, hended, hw⟩ :=
    inverse_pass (s := s.afterKeyload .decrypt da dl ka kl) rfl h.pre h.regions
  refine ⟨t, ?_, hsame, hidle, hrnd, hzero, hended, ?_⟩
  · rw [decryptTicks, show ∀ m, 4 + m = 2 + (2 + m) by omega]
    exact (front_end_passes h .decrypt).trans hrun
  · exact hsame.latchedWords_eq.symm.trans hw

theorem exec_encrypt_idle (hs : s.seq = .idle) : exec (.encrypt da dl ka kl) s =
    runBusy (encryptTicks (wordCount dl)) (s.latch .encrypt da dl ka kl) := if_pos hs

theorem exec_decrypt_idle (hs : s.seq = .idle) : exec (.decrypt da dl ka kl) s =
    runBusy (decryptTicks (wordCount dl)) (s.latch .decrypt da dl ka kl) := if_pos hs

/-- The run of a command whose descriptor violates a precondition ends at CHECK (R154). -/
theorem runBusy_violation {code : BitVec 3} {info : Nat} (h : firstViolation da dl ka kl = some (code, info)) (o : Op)
    (k : Nat) : runBusy (k + 1) (s.latch o da dl ka kl) = .next ((s.latch o da dl ka kl).raise code info) := by
  have hcheck := seqStep_of_row (s := s.latch o da dl ka kl) (.violation code info rfl h) nofun
  rw [runBusy_succ, latch_seq, if_pos (by decide), hcheck, andThen_next, runBusy_of_not_busy (fun hb => hb.2 rfl)]

/-- A command given to an idle engine faults when its descriptor violates a precondition. -/
theorem exec_violation {i : Instr} (hi : i = .encrypt da dl ka kl ∨ i = .decrypt da dl ka kl) (hs : s.seq = .idle)
    {code : BitVec 3} {info : Nat} (h : firstViolation da dl ka kl = some (code, info)) :
    exec i s = .next ((s.accept i).raise code info) := by
  rcases hi with rfl | rfl
  · rw [exec_encrypt_idle hs, encryptTicks, Nat.add_comm]
    exact runBusy_violation h .encrypt _
  · rw [exec_decrypt_idle hs, decryptTicks, Nat.add_comm]
    exact runBusy_violation h .decrypt _

end

/-! ## The statement -/

/-- Settles O26: a violated precondition is the fault of CHECK; otherwise the command can run, and its pass
completes. -/
theorem commandEndsInOneOfTwoWays : Obligations.CommandEndsInOneOfTwoWays := by
  intro s da dl ka kl i hs hi hregions
  cases hv : firstViolation da dl ka kl with
  | some v =>
    refine ⟨_, exec_violation hi hs hv, .inr ⟨fun hp => ?_, rfl, accept_mem s i⟩⟩
    rw [firstViolation_eq_none.mpr hp] at hv
    cases hv
  | none =>
    have hp := firstViolation_eq_none.mp hv
    have hrun : CanRun s da dl ka kl := ⟨hs, hp, hregions hp⟩
    rcases hi with rfl | rfl
    · obtain ⟨t, ht, -, hidle, -, -, -, hw⟩ := encrypt_run hrun
      exact ⟨t, (exec_encrypt_idle hs).trans ht.runBusy, .inl ⟨hp, hidle, fun _ => hw, nofun⟩⟩
    · obtain ⟨t, ht, -, hidle, -, -, -, hw⟩ := decrypt_run hrun
      exact ⟨t, (exec_decrypt_idle hs).trans ht.runBusy, .inl ⟨hp, hidle, nofun, fun _ => hw⟩⟩

end Sys2Proof.Machine
end

section
/-! PROOFS. The state between steps (spec/10_state.md): the position and its view, the table of R31, what the host's
turns leave alone, and which registers a command at each position still reads. -/

namespace Sys2Proof.Machine

/-! ## STATE, a view of SEQ, and reset -/

theorem status_idle_iff (q : Seq) : q.status = .idle ↔ q = .idle := by cases q <;> decide

theorem status_fault_iff (q : Seq) : q.status = .fault ↔ q = .fault := by cases q <;> decide

/-- The codes of STATE tell its values apart, and none is 3 (R32). -/
theorem status_code_iff (v : Status) :
    (v.code = 0 ↔ v = .idle) ∧ (v.code = 1 ↔ v = .busy) ∧ (v.code = 2 ↔ v = .fault) ∧ v.code ≠ 3 := by cases v <;> decide

/-- Settles O54: the view and its codes, each by its cases. -/
theorem stateViewsSeq : Obligations.StateViewsSeq := fun q =>
  ⟨status_idle_iff q, status_fault_iff q, status_busy_iff q, status_code_iff q.status⟩

/-- Settles O14: the values as `State.reset` writes them. -/
theorem resetValues : Obligations.ResetValues := ⟨rfl, rfl, rfl, rfl⟩

/-! ## The table of R31 -/

/-- A row of the sequencer with its effects goes where the table says, under the table's condition. -/
theorem SeqRow.in_table {s t : State} (h : SeqRow s t) : transition s t.seq := by
  cases h with
  | accept d i hs hp hd => simp [transition, hs, hp]
  | rest hs hp => simp [transition, hs, hp]
  | violation code info hs hv => simp [transition, hs, ← firstViolation_eq_none, hv]
  | valid hs hv => simp [transition, hs, hv]
  | keyload hs hr => cases ho : s.op <;> simp [transition, hs, ho, Op.firstStep]
  | fInit hs hc => simp [transition, hs]
  | fRoundOn hs hr => simp [transition, hs, hr]
  | fRoundEnd hs hr => simp [transition, hs, hr]
  | fMixOn hs hp hq hc => simp [transition, hs, hp]
  | fMixEnd hs hp hq hc => simp [transition, hs, hp]
  | iInit hs hc => simp [transition, hs]
  | iTestOn hs hz => simpa [transition, hs] using hz
  | iTestEnd hs hz => simp [transition, hs, hz]
  | iMixOn hs hp hq hc => simp [transition, hs, hp]
  | iMixEnd hs hp hq hc => simp [transition, hs, hp]
  | iNext hs => simp [transition, hs]
  | stopped hs => simp [transition, hs]

/-- Settles O36: a step that answers is a row, and every row is in the table. -/
theorem sequencerFollowsItsTable : Obligations.SequencerFollowsItsTable := fun _ _ h => (seqStep_row h).in_table

/-! ## The host's turns -/

/-- A step with a turn scheduled is that turn. -/
theorem step_of_turn {s : State} {turn : Turn} {rest : List Turn} (h : s.turns = turn :: rest) :
    step s = takeTurn turn { s with turns := rest } := by
  simp only [step, h]

/-- Settles O55: each turn writes the port, memory or nothing. -/
theorem hostActionsLeaveTheEngineAlone : Obligations.HostActionsLeaveTheEngineAlone := by
  intro s t turn rest hturns htick hwait hreset h
  rw [step_of_turn hturns] at h
  cases turn with
  | tick => exact absurd rfl htick
  | wait => exact absurd rfl hwait
  | reset => exact absurd rfl hreset
  | present d =>
    simp only [takeTurn] at h
    split at h
    · cases h; exact ⟨rfl, nofun⟩
    · cases h
  | withdraw => cases h; exact ⟨rfl, nofun⟩
  | write a b =>
    obtain ⟨-, -, rfl⟩ := hostAccess_next h
    exact ⟨rfl, nofun⟩
  | read a =>
    obtain ⟨-, -, rfl⟩ := hostAccess_next h
    exact ⟨rfl, nofun⟩
  | readStatus => cases h; exact ⟨rfl, fun _ => rfl⟩

/-! ## The leftovers of earlier commands -/

/-- `r` with the registers and the memory of `s` that a command at position `q` may still read before it writes them,
and the status. The rest of `r` is leftover (R29, R40). -/
def State.withLive (r : State) (q : Seq) (s : State) : State :=
  let r := { r with
    cfg := s.cfg, seq := s.seq, op := s.op, dataAddr := s.dataAddr, dataLen := s.dataLen, keyAddr := s.keyAddr
    keyLen := s.keyLen, errCode := s.errCode, errInfo := s.errInfo, mem := s.mem }
  match q with
  | .idle | .check | .keyload | .fault => r
  | .fInit | .iInit => { r with key := s.key }
  | .fRound => { r with key := s.key, n := s.n, rnd := s.rnd, sum := s.sum, z := s.z }
  | .fMix => { r with key := s.key, n := s.n, rnd := s.rnd, sum := s.sum, z := s.z, p := s.p }
  | .iTest | .iNext => { r with key := s.key, n := s.n, sum := s.sum, y := s.y }
  | .iMix => { r with key := s.key, n := s.n, sum := s.sum, y := s.y, p := s.p }

section
variable (r s : State) (q : Seq)

@[simp] theorem withLive_seq : (r.withLive q s).seq = s.seq := by cases q <;> rfl
@[simp] theorem withLive_dataAddr : (r.withLive q s).dataAddr = s.dataAddr := by cases q <;> rfl
@[simp] theorem withLive_dataLen : (r.withLive q s).dataLen = s.dataLen := by cases q <;> rfl
@[simp] theorem withLive_keyAddr : (r.withLive q s).keyAddr = s.keyAddr := by cases q <;> rfl
@[simp] theorem withLive_keyLen : (r.withLive q s).keyLen = s.keyLen := by cases q <;> rfl
@[simp] theorem withLive_mem : (r.withLive q s).mem = s.mem := by cases q <;> rfl
@[simp] theorem withLive_status : (r.withLive q s).status = s.status := by cases q <;> rfl

/-- The first step of either pass has the same live registers: the key file beside the latches. -/
theorem withLive_firstStep (o : Op) : r.withLive o.firstStep s = r.withLive .fInit s := by cases o <;> rfl

end

/-- A row of a BUSY engine reads live registers only: it is taken whatever the leftovers are, and the registers that are
live after it are the same. -/
theorem SeqRow.withLive {s t : State} (h : SeqRow s t) (hb : s.seq.busy) (r : State) :
    ∃ t', SeqRow (r.withLive s.seq s) t' ∧ t' = t'.withLive t.seq t := by
  cases h with
  | accept d i hs hp hd => exact absurd hs hb.1
  | rest hs hp => exact absurd hs hb.1
  | violation code info hs hv => rw [hs]; exact ⟨_, .violation code info hs hv, rfl⟩
  | valid hs hv => rw [hs]; exact ⟨_, .valid hs hv, rfl⟩
  | keyload hs hr =>
    rw [hs]
    refine ⟨_, .keyload hs hr, ?_⟩
    change _ = State.withLive _ s.op.firstStep _
    rw [withLive_firstStep]
    rfl
  | fInit hs hc => rw [hs]; exact ⟨_, .fInit hs hc, rfl⟩
  | fRoundOn hs hr => rw [hs]; exact ⟨_, .fRoundOn hs hr, rfl⟩
  | fRoundEnd hs hr => rw [hs]; exact ⟨_, .fRoundEnd hs hr, rfl⟩
  | fMixOn hs hp hq hc => rw [hs]; exact ⟨_, .fMixOn hs hp hq hc, rfl⟩
  | fMixEnd hs hp hq hc => rw [hs]; exact ⟨_, .fMixEnd hs hp hq hc, rfl⟩
  | iInit hs hc => rw [hs]; exact ⟨_, .iInit hs hc, rfl⟩
  | iTestOn hs hz => rw [hs]; exact ⟨_, .iTestOn hs hz, rfl⟩
  | iTestEnd hs hz => rw [hs]; exact ⟨_, .iTestEnd hs hz, rfl⟩
  | iMixOn hs hp hq hc => rw [hs]; exact ⟨_, .iMixOn hs hp hq hc, rfl⟩
  | iMixEnd hs hp hq hc => rw [hs]; exact ⟨_, .iMixEnd hs hp hq hc, rfl⟩
  | iNext hs => rw [hs]; exact ⟨_, .iNext hs, rfl⟩
  | stopped hs => exact absurd hs hb.2

theorem firstStep_ne_keyload (o : Op) : o.firstStep ≠ .keyload := by cases o <;> decide

/-- The one way into KEYLOAD is a passed CHECK (R31). -/
theorem SeqRow.preconditions_of_keyload {s t : State} (h : SeqRow s t) (ht : t.seq = .keyload) :
    PreconditionsHold t.dataAddr t.dataLen t.keyAddr t.keyLen := by
  cases h with
  | valid hs hv => exact hv
  | accept d i hs hp hd => rw [accept_seq] at ht; cases ht
  | keyload hs hr => exact absurd ht (firstStep_ne_keyload s.op)
  | rest hs hp => rw [hs] at ht; cases ht
  | stopped hs => rw [hs] at ht; cases ht
  | _ => cases ht

/-- `s` and `t` are engines at one point of one command: they differ in leftovers only, and are in KEYLOAD after a
passed CHECK only. -/
structure SameCommand (s t : State) : Prop where
  live : t = t.withLive s.seq s
  checked : s.seq = .keyload → PreconditionsHold s.dataAddr s.dataLen s.keyAddr s.keyLen

namespace SameCommand
variable {s₁ s₂ t₁ : State}

theorem seq_eq (h : SameCommand s₁ s₂) : s₂.seq = s₁.seq := by rw [h.live, withLive_seq]

theorem mem_eq (h : SameCommand s₁ s₂) : s₂.mem = s₁.mem := by rw [h.live, withLive_mem]

theorem status_eq (h : SameCommand s₁ s₂) : s₂.status = s₁.status := by rw [h.live, withLive_status]

/-- Where one engine takes a step the other takes the same. -/
theorem of_seqStep (h : SameCommand s₁ s₂) (hb : s₁.seq.busy) (ht : seqStep s₁ = .next t₁) :
    ∃ t₂, seqStep s₂ = .next t₂ ∧ SameCommand t₁ t₂ := by
  have hrow₁ := seqStep_row ht
  obtain ⟨t₂, hrow₂, hlive⟩ := hrow₁.withLive hb s₂
  rw [← h.live] at hrow₂
  refine ⟨t₂, seqStep_of_row hrow₂ fun hk => ?_, hlive, hrow₁.preconditions_of_keyload⟩
  rw [h.live]
  simpa using h.checked (h.seq_eq.symm.trans hk)

/-- Where one engine comes to the end of its run the other does. -/
theorem of_runBusy {k : Nat} (h : SameCommand s₁ s₂) (ht : runBusy k s₁ = .next t₁) :
    ∃ t₂, runBusy k s₂ = .next t₂ ∧ SameCommand t₁ t₂ := by
  induction k generalizing s₁ s₂ with
  | zero => cases ht; exact ⟨s₂, rfl, h⟩
  | succ k ih =>
    rw [runBusy_succ] at ht ⊢
    rw [h.seq_eq]
    split at ht
    · next hb =>
      obtain ⟨u₁, hu₁, ht⟩ := andThen_eq_next ht
      obtain ⟨u₂, hu₂, hu⟩ := h.of_seqStep hb hu₁
      obtain ⟨t₂, ht₂, hrest⟩ := ih hu ht
      exact ⟨t₂, by rw [if_pos hb, hu₂]; exact ht₂, hrest⟩
    · next hb => cases ht; exact ⟨s₂, if_neg hb, h⟩

/-- Two engines that accept one command differ in leftovers only. -/
theorem of_accept (hcfg : s₂.cfg = s₁.cfg) (hmem : s₂.mem = s₁.mem) (hcode : s₂.errCode = s₁.errCode)
    (hinfo : s₂.errInfo = s₁.errInfo) (i : Instr) : SameCommand (s₁.accept i) (s₂.accept i) := by
  refine ⟨?_, fun hk => by rw [accept_seq] at hk; cases hk⟩
  rw [accept_seq]
  cases i <;> simp only [accept_encrypt, accept_decrypt, State.latch, State.withLive, hcfg, hmem, hcode, hinfo]

end SameCommand

/-- How long an idle engine runs a command is a matter of the command alone. -/
theorem exec_idle (i : Instr) : ∃ k, ∀ s : State, s.seq = .idle → exec i s = runBusy k (s.accept i) := by
  cases i with
  | encrypt da dl ka kl => exact ⟨_, fun _ => exec_encrypt_idle⟩
  | decrypt da dl ka kl => exact ⟨_, fun _ => exec_decrypt_idle⟩

/-- Settles O28: the two engines are at one point of the command after every step, and at its end. -/
theorem resultIgnoresLeftovers : Obligations.ResultIgnoresLeftovers := by
  intro i s₁ s₂ t₁ hs₁ hs₂ hcfg hmem hcode₁ hcode₂ hinfo₁ hinfo₂ ht₁
  obtain ⟨k, hexec⟩ := exec_idle i
  rw [hexec s₁ hs₁] at ht₁
  have hsame : SameCommand (s₁.accept i) (s₂.accept i) :=
    .of_accept hcfg.symm hmem.symm (hcode₂.trans hcode₁.symm) (hinfo₂.trans hinfo₁.symm) i
  obtain ⟨t₂, ht₂, hend⟩ := hsame.of_runBusy ht₁
  exact ⟨t₂, (hexec s₂ hs₂).trans ht₂, hend.mem_eq, hend.status_eq⟩

end Sys2Proof.Machine
end

section
/-! PROOFS. Bytes and words (spec/20_memory.md): a word is the weighted sum of its four bytes, and neither byte order
loses anything in either direction. -/

namespace Sys2Proof.Machine

section
variable (bo : ByteOrder) (w : Word) (b0 b1 b2 b3 : Byte)

/-! ## The two orders mirror each other -/

theorem wordOfBytes_little_eq_big : wordOfBytes .little b0 b1 b2 b3 = wordOfBytes .big b3 b2 b1 b0 := rfl

theorem bytesOfWord_little_eq_reverse : bytesOfWord .little w = (bytesOfWord .big w).reverse := rfl

/-! ## A word as a sum (R49) -/

/-- A byte appended below is added to 256 times what stands above it. -/
theorem toNat_append_byte {n : Nat} (x : BitVec n) (b : Byte) : (x ++ b).toNat = x.toNat * 2 ^ 8 + b.toNat := by
  rw [BitVec.toNat_append, ← Nat.shiftLeft_add_eq_or_of_lt b.isLt, Nat.shiftLeft_eq]

theorem wordOfBytes_big_toNat : (wordOfBytes .big b0 b1 b2 b3).toNat
    = b0.toNat * 2 ^ 24 + b1.toNat * 2 ^ 16 + b2.toNat * 2 ^ 8 + b3.toNat := by
  simp only [wordOfBytes, toNat_append_byte]
  omega

theorem wordOfBytes_little_toNat : (wordOfBytes .little b0 b1 b2 b3).toNat
    = b0.toNat + b1.toNat * 2 ^ 8 + b2.toNat * 2 ^ 16 + b3.toNat * 2 ^ 24 := by
  rw [wordOfBytes_little_eq_big, wordOfBytes_big_toNat]
  omega

/-! ## From bytes to a word and back (R50) -/

/-- The byte appended last is the lowest one. -/
theorem extractByte_append_zero {n : Nat} (x : BitVec n) (b : Byte) : (x ++ b).extractLsb' 0 8 = b :=
  BitVec.extractLsb'_append_eq_right

/-- What stood above the byte appended last has moved up by 8 bits. -/
theorem extractByte_append_add {n : Nat} (x : BitVec n) (b : Byte) (start : Nat) :
    (x ++ b).extractLsb' (start + 8) 8 = x.extractLsb' start 8 :=
  BitVec.extractLsb'_append_eq_of_le (Nat.le_add_left 8 start)

theorem bytesOfWord_wordOfBytes_big : bytesOfWord .big (wordOfBytes .big b0 b1 b2 b3) = [b0, b1, b2, b3] := by
  have h0 : (wordOfBytes .big b0 b1 b2 b3).extractLsb' 24 8 = b0 := by
    rw [wordOfBytes, extractByte_append_add _ _ 16, extractByte_append_add _ _ 8, extractByte_append_add _ _ 0,
      BitVec.extractLsb'_eq_self]
  have h1 : (wordOfBytes .big b0 b1 b2 b3).extractLsb' 16 8 = b1 := by
    rw [wordOfBytes, extractByte_append_add _ _ 8, extractByte_append_add _ _ 0, extractByte_append_zero]
  have h2 : (wordOfBytes .big b0 b1 b2 b3).extractLsb' 8 8 = b2 := by
    rw [wordOfBytes, extractByte_append_add _ _ 0, extractByte_append_zero]
  have h3 : (wordOfBytes .big b0 b1 b2 b3).extractLsb' 0 8 = b3 := extractByte_append_zero _ _
  rw [bytesOfWord, h0, h1, h2, h3]

theorem bytesOfWord_wordOfBytes : bytesOfWord bo (wordOfBytes bo b0 b1 b2 b3) = [b0, b1, b2, b3] := by
  cases bo with
  | big => exact bytesOfWord_wordOfBytes_big b0 b1 b2 b3
  | little =>
    rw [wordOfBytes_little_eq_big, bytesOfWord_little_eq_reverse, bytesOfWord_wordOfBytes_big]
    rfl

/-! ## From a word to bytes and back (R50) -/

/-- A byte appended below the bits that stood above it in the word. -/
theorem extractLsb'_append_extractByte (start len : Nat) :
    w.extractLsb' (start + 8) len ++ w.extractLsb' start 8 = w.extractLsb' start (len + 8) :=
  BitVec.extractLsb'_append_extractLsb'_eq_extractLsb' rfl

theorem wordOfBytes_big_extractBytes :
    wordOfBytes .big (w.extractLsb' 24 8) (w.extractLsb' 16 8) (w.extractLsb' 8 8) (w.extractLsb' 0 8) = w := by
  rw [wordOfBytes, extractLsb'_append_extractByte w 16, extractLsb'_append_extractByte w 8,
    extractLsb'_append_extractByte w 0]
  exact BitVec.extractLsb'_eq_self

theorem exists_bytesOfWord :
    ∃ c0 c1 c2 c3, bytesOfWord bo w = [c0, c1, c2, c3] ∧ wordOfBytes bo c0 c1 c2 c3 = w := by
  cases bo with
  | big => exact ⟨_, _, _, _, rfl, wordOfBytes_big_extractBytes w⟩
  | little => exact ⟨_, _, _, _, rfl, wordOfBytes_big_extractBytes w⟩

end

/-- Settles O35, byte by byte in the big order; the little order is its mirror image. -/
theorem byteOrderIsLossless : Obligations.ByteOrderIsLossless := fun bo w b0 b1 b2 b3 =>
  ⟨wordOfBytes_little_toNat b0 b1 b2 b3, wordOfBytes_big_toNat b0 b1 b2 b3, bytesOfWord_wordOfBytes bo b0 b1 b2 b3,
    exists_bytesOfWord bo w⟩

end Sys2Proof.Machine
end

section
/-! PROOFS. The decoder on a packed descriptor (spec/30_encoding.md R67 to R69, R76, R82): the five fields tile the
descriptor's bits, so packing what was read from a number gives the number back. -/

namespace Sys2Proof.Laws

/-! ## The fields of a descriptor (R68) -/

section
variable (cfg : Config) (d : Nat)

theorem bitField_lt (lo width : Nat) : bitField d lo width < 2 ^ width := Nat.mod_lt _ (Nat.two_pow_pos _)

/-- A field put on top of all the bits below it. -/
theorem lowBits_add_bitField (lo width : Nat) :
    d % 2 ^ lo + bitField d lo width * 2 ^ lo = d % 2 ^ (lo + width) := by
  rw [bitField, Nat.pow_add, Nat.mod_mul, Nat.mul_comm]

theorem opField_eq : opField d = d % 2 := by rw [opField, bitField, Nat.pow_zero, Nat.div_one, Nat.pow_one]

theorem dataAddrField_eq : dataAddrField cfg d = d / 2 % 2 ^ cfg.addrW := by
  rw [dataAddrField, bitField, Nat.pow_one]

theorem dataLenField_eq : dataLenField cfg d = d / 2 ^ (cfg.addrW + 1) % 2 ^ cfg.addrW := rfl

theorem keyAddrField_eq : keyAddrField cfg d = d / 2 ^ (2 * cfg.addrW + 1) % 2 ^ cfg.addrW := rfl

theorem keyLenField_eq : keyLenField cfg d = d / 2 ^ (3 * cfg.addrW + 1) % 2 ^ cfg.addrW := rfl

theorem fields_fit :
    OperandsFit cfg (dataAddrField cfg d) (dataLenField cfg d) (keyAddrField cfg d) (keyLenField cfg d) :=
  ⟨bitField_lt d _ _, bitField_lt d _ _, bitField_lt d _ _, bitField_lt d _ _⟩

/-- Field by field from OP up, each starts where the bits packed so far end. -/
theorem pack_fields :
    pack cfg (opField d) (dataAddrField cfg d) (dataLenField cfg d) (keyAddrField cfg d) (keyLenField cfg d)
      = d % 2 ^ cfg.descriptorBits := by
  have hDataAddr : opField d + dataAddrField cfg d * 2 = d % 2 ^ (cfg.addrW + 1) := by
    rw [opField_eq, Nat.add_comm cfg.addrW]
    exact lowBits_add_bitField d 1 cfg.addrW
  have hDataLen : d % 2 ^ (cfg.addrW + 1) + dataLenField cfg d * 2 ^ (cfg.addrW + 1) = d % 2 ^ (2 * cfg.addrW + 1) := by
    rw [dataLenField, lowBits_add_bitField, show cfg.addrW + 1 + cfg.addrW = 2 * cfg.addrW + 1 by omega]
  have hKeyAddr : d % 2 ^ (2 * cfg.addrW + 1) + keyAddrField cfg d * 2 ^ (2 * cfg.addrW + 1)
      = d % 2 ^ (3 * cfg.addrW + 1) := by
    rw [keyAddrField, lowBits_add_bitField, show 2 * cfg.addrW + 1 + cfg.addrW = 3 * cfg.addrW + 1 by omega]
  have hKeyLen : d % 2 ^ (3 * cfg.addrW + 1) + keyLenField cfg d * 2 ^ (3 * cfg.addrW + 1)
      = d % 2 ^ cfg.descriptorBits := by
    rw [keyLenField, lowBits_add_bitField, show 3 * cfg.addrW + 1 + cfg.addrW = cfg.descriptorBits by
      rw [Config.descriptorBits]; omega]
  rw [pack, hDataAddr, hDataLen, hKeyAddr, hKeyLen]

end

/-! ## What the decoder answers -/

section
variable {cfg : Config} {d : Nat}

theorem decode_of_tooWide (h : 2 ^ cfg.descriptorBits ≤ d) : decode cfg d = .error .tooWide := if_pos h

theorem decode_of_op_zero (h : d < 2 ^ cfg.descriptorBits) (ho : opField d = 0) : decode cfg d =
    .ok (.encrypt (dataAddrField cfg d) (dataLenField cfg d) (keyAddrField cfg d) (keyLenField cfg d)) := by
  rw [decode, if_neg (Nat.not_le.2 h), if_pos ho]

theorem decode_of_op_one (h : d < 2 ^ cfg.descriptorBits) (ho : opField d = 1) : decode cfg d =
    .ok (.decrypt (dataAddrField cfg d) (dataLenField cfg d) (keyAddrField cfg d) (keyLenField cfg d)) := by
  rw [decode, if_neg (Nat.not_le.2 h), if_neg (by omega)]

/-- Encode after decode: every descriptor is the encoding of the well-formed command it decodes to. -/
theorem exists_decode_encode (h : d < 2 ^ cfg.descriptorBits) :
    ∃ i, decode cfg d = .ok i ∧ i.wellFormed cfg = true ∧ encode cfg i = d := by
  have hpack := (pack_fields cfg d).trans (Nat.mod_eq_of_lt h)
  have hop : opField d = 0 ∨ opField d = 1 := by
    rw [opField_eq]
    exact Nat.mod_two_eq_zero_or_one d
  obtain ho | ho := hop
  · exact ⟨_, decode_of_op_zero h ho, decide_eq_true (fields_fit cfg d), by rwa [ho] at hpack⟩
  · exact ⟨_, decode_of_op_one h ho, decide_eq_true (fields_fit cfg d), by rwa [ho] at hpack⟩

end

/-- Settles O2: OP has two values, and the fields packed again are the descriptor. -/
theorem everyDescriptorIsOneCommand : Obligations.EveryDescriptorIsOneCommand := by
  intro cfg d
  refine ⟨fun h => ⟨fun heven => ?_, fun hodd => ?_, exists_decode_encode h⟩, fun h i hi => ?_⟩
  · rw [decode_of_op_zero h ((opField_eq d).trans heven), dataAddrField_eq,
      dataLenField_eq, keyAddrField_eq, keyLenField_eq]
  · rw [decode_of_op_one h ((opField_eq d).trans hodd), dataAddrField_eq,
      dataLenField_eq, keyAddrField_eq, keyLenField_eq]
  · rw [decode_of_tooWide h] at hi
    cases hi

/-- Settles O3: the decoder and the encoder read no parameter but `ADDR_W`, and with it fixed the fields are closed
arithmetic. -/
theorem workedEncodingsDecode : Obligations.WorkedEncodingsDecode := by
  intro cfg h
  have hbits : cfg.descriptorBits = 129 := by rw [Config.descriptorBits, h]
  refine ⟨?_, ?_, ?_, ?_⟩
  · rw [decode_of_op_zero (by norm_num [hbits]) (by norm_num [opField_eq])]
    norm_num [dataAddrField_eq, dataLenField_eq, keyAddrField_eq, keyLenField_eq, h]
  · rw [decode_of_op_one (by norm_num [hbits]) (by norm_num [opField_eq])]
    norm_num [dataAddrField_eq, dataLenField_eq, keyAddrField_eq, keyLenField_eq, h]
  · norm_num [encode, pack, h]
  · norm_num [encode, pack, h]

end Sys2Proof.Laws
end

section
/-! PROOFS. The round mixer MX and the key lookup (spec/40_mixer.md): the word operations as arithmetic on naturals, and
the key index as the position's low two bits permuted by the selector. -/

namespace Sys2Proof.Machine

/-! ## The word operations on naturals (R84, R87) -/

section
variable (x y : Word) (i : Nat)

theorem add_eq_ofNat_mod : x + y = BitVec.ofNat 32 ((x.toNat + y.toNat) % 2 ^ 32) :=
  (BitVec.toNat_eq_nat.1 (BitVec.toNat_add x y)).2

theorem shiftRight_eq_ofNat_div : x >>> i = BitVec.ofNat 32 (x.toNat / 2 ^ i) := by
  have h : (x >>> i).toNat = x.toNat / 2 ^ i := by rw [BitVec.toNat_ushiftRight, Nat.shiftRight_eq_div_pow]
  exact (BitVec.toNat_eq_nat.1 h).2

theorem shiftLeft_eq_ofNat_mul_mod : x <<< i = BitVec.ofNat 32 (x.toNat * 2 ^ i % 2 ^ 32) := by
  have h : (x <<< i).toNat = x.toNat * 2 ^ i % 2 ^ 32 := by rw [BitVec.toNat_shiftLeft, Nat.shiftLeft_eq]
  exact (BitVec.toNat_eq_nat.1 h).2

end

/-! ## The key lookup (R90) -/

section
variable (p : Nat) (e : BitVec 2)

theorem keyIndex_toNat : (keyIndex p e).toNat = (p ^^^ e.toNat) % 4 := by
  rw [keyIndex, Nat.and_two_pow_sub_one_eq_mod _ 2, BitVec.toNat_ofNat, Nat.mod_mod]

/-- The mask `& 3` keeps both bits of a 2-bit value. -/
theorem keyIndex_eq_xor : keyIndex p e = BitVec.ofNat 2 p ^^^ e := by
  rw [keyIndex, BitVec.ofNat_and, BitVec.ofNat_xor, BitVec.ofNat_toNat, BitVec.setWidth_eq]
  exact BitVec.and_allOnes

theorem keyIndex_add_four : keyIndex (p + 4) e = keyIndex p e := by
  have hlow : BitVec.ofNat 2 (p + 4) = BitVec.ofNat 2 p := BitVec.eq_of_toNat_eq (Nat.add_mod_right p 4)
  rw [keyIndex_eq_xor, keyIndex_eq_xor, hlow]

end

namespace KeyFile

/-- A 2-bit index has four values, one for each word of the key file. -/
theorem get_eq_getD (k : KeyFile) (i : BitVec 2) : k.get i = [k.k0, k.k1, k.k2, k.k3].getD i.toNat 0 := by
  match i with
  | 0#2 => rfl
  | 1#2 => rfl
  | 2#2 => rfl
  | 3#2 => rfl

theorem get_keyIndex (k : KeyFile) (p : Nat) (e : BitVec 2) :
    k.get (keyIndex p e) = [k.k0, k.k1, k.k2, k.k3].getD ((p ^^^ e.toNat) % 4) 0 := by
  rw [get_eq_getD, keyIndex_toNat]

end KeyFile

/-- The mixer reads the key file in one place only (R96 c). -/
theorem mx_eq_of_get_eq {p : Nat} {e : BitVec 2} {k k' : KeyFile} (h : k.get (keyIndex p e) = k'.get (keyIndex p e))
    (kxz : Bool) (sum y z : Word) : mx kxz sum y z p e k = mx kxz sum y z p e k' := by
  rw [mx, mx, h]

/-- Settles O32: as a 2-bit value the key index is the position XOR the selector, as a number their XOR modulo 4. -/
theorem keyLookup : Obligations.KeyLookup := fun p e =>
  ⟨keyIndex_eq_xor p e, keyIndex_add_four p e, fun k => k.get_keyIndex p e,
    fun kxz sum y z _ _ h => mx_eq_of_get_eq h kxz sum y z⟩

/-! ## The mixer's two terms (R89) -/

theorem shiftTerm_eq_ofNat (y z : Word) :
    shiftTerm y z = BitVec.ofNat 32
      (((BitVec.ofNat 32 (z.toNat / 2 ^ 5) ^^^ BitVec.ofNat 32 (y.toNat * 2 ^ 2 % 2 ^ 32)).toNat
        + (BitVec.ofNat 32 (y.toNat / 2 ^ 3) ^^^ BitVec.ofNat 32 (z.toNat * 2 ^ 4 % 2 ^ 32)).toNat) % 2 ^ 32) := by
  rw [shiftTerm, add_eq_ofNat_mod, shiftRight_eq_ofNat_div, shiftLeft_eq_ofNat_mul_mod, shiftRight_eq_ofNat_div,
    shiftLeft_eq_ofNat_mul_mod]

/-- With KEY_XOR_Z off the key word enters as it stands. -/
theorem keyTerm_false_eq_ofNat (sum y z keyWord : Word) :
    keyTerm false sum y z keyWord = BitVec.ofNat 32 (((sum ^^^ y).toNat + keyWord.toNat) % 2 ^ 32) :=
  add_eq_ofNat_mod (sum ^^^ y) keyWord

/-- Settles O30: each term of the mixer on naturals, and the key word at its index. -/
theorem mixerFormula : Obligations.MixerFormula := by
  intro sum y z p e k a b t1 keyWord t2
  rw [mx, shiftTerm_eq_ofNat, keyTerm_false_eq_ofNat, k.get_keyIndex]

end Sys2Proof.Machine
end

section
/-! PROOFS. The forward pass (spec/41_forward.md): its steps row by row, the round count, the round as one cyclic loop,
and the agreement of the steps with ENC. -/

namespace Sys2Proof.Machine

/-! ## The pass computes ENC (R107) -/

/-- Settles O17: the simulation of R98 by the pass, from F_INIT to IDLE. -/
theorem forwardStepsComputeEnc : Obligations.ForwardStepsComputeEnc := by
  intro s hs hp hr
  obtain ⟨t, hrun, hsame, hidle, -, -, -, hw⟩ := forward_pass hs hp hr
  exact ⟨_, t, hrun.run, hidle, hsame.latchedWords_eq.symm.trans hw, hsame.outside⟩

/-! ## The cyclic round (R100) -/

/-- Settles O21: below the last position the neighbour's index does not wrap, and at the last it wraps to 0. -/
theorem forwardRoundIsCyclic : Obligations.ForwardRoundIsCyclic := by
  intro kxz k n v z sum _
  have hinner : (List.range n).foldl
      (fun c p => encMix kxz k (sum + delta) c.1 c.2 p (c.1.getD ((p + 1) % (n + 1)) 0)) (v, z)
      = (List.range n).foldl (fun c p => encMix kxz k (sum + delta) c.1 c.2 p (c.1.getD (p + 1) 0)) (v, z) := by
    refine List.foldl_ext _ _ _ fun c p hp => ?_
    rw [Nat.mod_eq_of_lt (Nat.succ_lt_succ (List.mem_range.mp hp))]
  simp only [encRound, List.range_succ, List.foldl_append, hinner, List.foldl_cons, List.foldl_nil, Nat.mod_self]

/-! ## The round count (R99) -/

/-- `6 + 52 div n_words` is `(52 + 6 * n_words) div n_words`, so that a round count is a pair of linear bounds. -/
theorem roundCount_eq_of_bounds {nWords r : Nat} (hlo : r * nWords ≤ 52 + 6 * nWords)
    (hhi : 52 + 6 * nWords < (r + 1) * nWords) : roundCount nWords = r := by
  have hpos : 0 < nWords := Nat.pos_of_ne_zero fun h => by simp [h] at hhi
  rw [roundCount, Nat.add_comm, ← Nat.add_mul_div_right 52 6 hpos]
  exact Nat.div_eq_of_lt_le hlo hhi

/-- Settles O34: each line of the table bounds the word count, and the bounds fix the quotient. -/
theorem roundCountTable : Obligations.RoundCountTable := by
  intro n hn
  refine ⟨rfl, Eq.symm ?_⟩
  iterate 12
    refine ite_eq_iff'.mpr ⟨fun _ => (roundCount_eq_of_bounds (by omega) (by omega)).symm, fun _ => ?_⟩
  exact (roundCount_eq_of_bounds (by omega) (by omega)).symm

/-! ## The steps (R101 to R105) -/

/-- A row taken anywhere but in KEYLOAD is the sequencer's step. -/
theorem seqStep_of_row_at {s t : State} {q : Seq} (hs : s.seq = q) (hq : q ≠ .keyload) (h : SeqRow s t) :
    seqStep s = .next t := seqStep_of_row h fun hk => absurd (hs.symm.trans hk) hq

/-- Settles O38: the three rows of R31 with their effects, F_INIT and the two of F_ROUND. -/
theorem forwardInitAndRoundSteps : Obligations.ForwardInitAndRoundSteps := fun _ =>
  ⟨fun hs hc => seqStep_of_row_at hs (by decide) (.fInit hs hc),
    fun hs hr => seqStep_of_row_at hs (by decide) (.fRoundOn hs hr),
    fun hs hr => seqStep_of_row_at hs (by decide) (.fRoundEnd hs hr)⟩

/-- The word update of a mix step whose position is known to be `p`. -/
theorem forwardUpdate_at {s : State} {p : Nat} (hp : s.p = p) (q : Nat) :
    let w := s.dataWord p + mx s.cfg.keyXorZ s.sum (s.dataWord q) s.z p (roundSelector s.sum) s.key
    forwardUpdate s q = { s with
      mem := s.mem.writeWord s.cfg.byteOrder (s.dataWordAddr p) w, y := s.dataWord q, z := w } := by
  subst hp
  rfl

/-- Settles O39: the two rows of R31 at F_MIX with their effects; at the last word the position P is N. -/
theorem forwardMixSteps : Obligations.ForwardMixSteps := by
  intro s hs hc
  refine ⟨fun hp hq => seqStep_of_row_at hs (by decide) (.fMixOn hs hp hq hc), fun hp hq => ?_⟩
  have hstep := seqStep_of_row_at hs (by decide) (.fMixEnd hs hp hq hc)
  rw [forwardUpdate_at hp] at hstep
  exact hstep

end Sys2Proof.Machine
end

section
/-! PROOFS. The inverse pass (spec/42_inverse.md): its steps row by row, the round as one cyclic loop, the agreement of
the steps with DEC, and the round trip of ENCRYPT and DECRYPT. -/

namespace Sys2Proof.Machine

/-! ## The steps (R117 to R122) -/

/-- Settles O40: the four rows of R31 with their effects, I_INIT, the two of I_TEST, and I_NEXT. -/
theorem inverseInitTestAndNextSteps : Obligations.InverseInitTestAndNextSteps := fun _ =>
  ⟨fun hs hc => seqStep_of_row_at hs (by decide) (.iInit hs hc),
    fun hs hz => seqStep_of_row_at hs (by decide) (.iTestOn hs hz),
    fun hs hz => seqStep_of_row_at hs (by decide) (.iTestEnd hs hz),
    fun hs => seqStep_of_row_at hs (by decide) (.iNext hs)⟩

/-- The word update of an inverse mix step whose position is known to be `p`. -/
theorem inverseUpdate_at {s : State} {p : Nat} (hp : s.p = p) (q : Nat) :
    let w := s.dataWord p - mx s.cfg.keyXorZ s.sum s.y (s.dataWord q) p (roundSelector s.sum) s.key
    inverseUpdate s q = { s with
      mem := s.mem.writeWord s.cfg.byteOrder (s.dataWordAddr p) w, z := s.dataWord q, y := w } := by
  subst hp
  rfl

/-- Settles O41: the two rows of R31 at I_MIX with their effects; at the first word the position P is 0. -/
theorem inverseMixSteps : Obligations.InverseMixSteps := by
  intro s hs hc
  refine ⟨fun hp hq => seqStep_of_row_at hs (by decide) (.iMixOn hs hp hq hc), fun hp hq => ?_⟩
  have hstep := seqStep_of_row_at hs (by decide) (.iMixEnd hs hp hq hc)
  rw [inverseUpdate_at hp] at hstep
  exact hstep

/-! ## The pass computes DEC (R123) -/

/-- Settles O18: the simulation of R114 by the pass, from I_INIT to IDLE. -/
theorem inverseStepsComputeDec : Obligations.InverseStepsComputeDec := by
  intro s hs hp hr
  obtain ⟨t, hrun, hsame, hidle, -, -, -, hw⟩ := inverse_pass hs hp hr
  exact ⟨_, t, hrun.run, hidle, hsame.latchedWords_eq.symm.trans hw, hsame.outside⟩

/-! ## The cyclic round (R116) -/

/-- Above the first position the index of the left neighbour does not wrap. -/
theorem leftIndex_of_succ {j n : Nat} (hj : j ≤ n) : (j + 1 + n) % (n + 1) = j := by
  rw [Nat.add_assoc, Nat.add_comm 1 n, Nat.add_mod_right, Nat.mod_eq_of_lt (Nat.lt_succ_of_le hj)]

section
variable (kxz : Bool) (k : KeyFile) (sum : Word) (n : Nat)

/-- The loop over `j, j-1, …, 0` with a cyclic left neighbour is step 2b from `j` down, then step 2c: above the first
position the neighbour's index does not wrap, and at the first it wraps to `n`. -/
theorem foldl_decMix_cyclic (j : Nat) (hj : j ≤ n) (v : List Word) (y : Word) :
    (List.range (j + 1)).reverse.foldl
        (fun c p => decMix kxz k sum c.1 c.2 p (c.1.getD ((p + n) % (n + 1)) 0)) (v, y)
      = decMix kxz k sum (decInner kxz k sum j v y).1 (decInner kxz k sum j v y).2 0
          ((decInner kxz k sum j v y).1.getD n 0) := by
  induction j generalizing v y with
  | zero => simp [decInner_zero]
  | succ j ih =>
    rw [List.range_succ, List.reverse_append, List.reverse_singleton, List.singleton_append, List.foldl_cons,
      leftIndex_of_succ (by omega), ih (by omega), decInner_succ]

end

/-- Settles O22: the whole loop, from the last position down. -/
theorem inverseRoundIsCyclic : Obligations.InverseRoundIsCyclic := by
  intro kxz k n v y sum _
  simp only [foldl_decMix_cyclic _ _ _ _ n (Nat.le_refl n), decRound]

/-! ## A round as a sweep over the words

When the carried neighbour is the word it was taken from (R106, R125), a mix step reads both neighbours from the list,
and a round needs nothing beside the list. The steps of the two passes then differ only in `+` and `-` and in their
order. -/

section
variable (op op' : Word → Word → Word) (kxz : Bool) (k : KeyFile) (sum : Word) (n : Nat)

/-- The mixer's value at position `p` of `n + 1` words, on the two cyclic neighbours. -/
def neighbourMix (v : List Word) (p : Nat) : Word :=
  mx kxz sum (v.getD ((p + 1) % (n + 1)) 0) (v.getD ((p + n) % (n + 1)) 0) p (roundSelector sum) k

/-- A mix step at position `p`: word `p` combined with the mixer's value. -/
def combineAt (v : List Word) (p : Nat) : List Word := v.set p (op (v.getD p 0) (neighbourMix kxz k sum n v p))

@[simp] theorem combineAt_length (v : List Word) (p : Nat) : (combineAt op kxz k sum n v p).length = v.length :=
  List.length_set

theorem getD_set_same {v : List Word} {p : Nat} (hp : p < v.length) (w : Word) : (v.set p w).getD p 0 = w := by
  simp [hp]

theorem getD_set_other {p q : Nat} (h : q ≠ p) (v : List Word) (w : Word) : (v.set p w).getD q 0 = v.getD q 0 := by
  simp [List.getElem?_set_ne h.symm]

variable {n}

/-- A step of less than the cycle's length leads to another position. -/
theorem add_mod_ne {p i : Nat} (hi : 0 < i) (hin : i < n + 1) (hp : p < n + 1) : (p + i) % (n + 1) ≠ p := by
  intro h
  have hmod : p + i ≡ p + 0 [MOD n + 1] := h.trans (Nat.mod_eq_of_lt hp).symm
  have hdvd : n + 1 ∣ i := (Nat.modEq_zero_iff_dvd).mp hmod.add_left_cancel'
  exact absurd (Nat.le_of_dvd hi hdvd) (by omega)

/-- With two words at least, the mixer at `p` does not see word `p`. -/
theorem neighbourMix_set (hn : 1 ≤ n) {p : Nat} (hp : p < n + 1) (v : List Word) (w : Word) :
    neighbourMix kxz k sum n (v.set p w) p = neighbourMix kxz k sum n v p := by
  rw [neighbourMix, getD_set_other (add_mod_ne Nat.one_pos (by omega) hp),
    getD_set_other (add_mod_ne hn (Nat.lt_succ_self n) hp), neighbourMix]

variable {op op'} in
/-- So the same step with the opposite operation undoes it. -/
theorem combineAt_combineAt (hop : ∀ a b, op' (op a b) b = a) (hn : 1 ≤ n) {v : List Word} (hv : v.length = n + 1)
    {p : Nat} (hp : p < n + 1) : combineAt op' kxz k sum n (combineAt op kxz k sum n v p) p = v := by
  have hpv : p < v.length := by omega
  rw [combineAt, combineAt, neighbourMix_set kxz k sum hn hp, getD_set_same hpv, hop, List.set_set,
    List.getD_eq_getElem v 0 hpv, List.set_getElem_self]

end

/-- Updates that keep the length of a list keep it one after another. -/
theorem foldl_length {α : Type} {f : List Word → α → List Word} (hf : ∀ v p, (f v p).length = v.length) (l : List α)
    (v : List Word) : (l.foldl f v).length = v.length := by
  induction l generalizing v with
  | nil => rfl
  | cons p l ih => rw [List.foldl_cons, ih, hf]

/-- Steps taken back in the opposite order, each by one that undoes it, give back what was there at first. -/
theorem foldl_reverse_foldl {α β : Type} {P : β → Prop} {f g : β → α → β} (l : List α)
    (hP : ∀ v, ∀ p ∈ l, P v → P (f v p)) (hg : ∀ v, ∀ p ∈ l, P v → g (f v p) p = v) {v : β} (hv : P v) :
    l.reverse.foldl g (l.foldl f v) = v := by
  induction l generalizing v with
  | nil => rfl
  | cons p l ih =>
    rw [List.foldl_cons, List.reverse_cons, List.foldl_append,
      ih (fun v q hq => hP v q (.tail _ hq)) (fun v q hq => hg v q (.tail _ hq)) (hP v p (.head _) hv)]
    exact hg v p (.head _) hv

/-- The same, the opposite order being the first. -/
theorem foldl_foldl_reverse {α β : Type} {P : β → Prop} {f g : β → α → β} (l : List α)
    (hP : ∀ v, ∀ p ∈ l, P v → P (f v p)) (hg : ∀ v, ∀ p ∈ l, P v → g (f v p) p = v) {v : β} (hv : P v) :
    l.foldl g (l.reverse.foldl f v) = v := by
  have h := foldl_reverse_foldl l.reverse (fun v p hp => hP v p (List.mem_reverse.mp hp))
    (fun v p hp => hg v p (List.mem_reverse.mp hp)) hv
  rwa [List.reverse_reverse] at h

section
variable (kxz : Bool) (k : KeyFile) (n : Nat)

/-- A round of ENC on the list of words, `sum` being the round's own checksum. -/
def encSweep (v : List Word) (sum : Word) : List Word := (List.range (n + 1)).foldl (combineAt (· + ·) kxz k sum n) v

/-- A round of DEC, likewise. -/
def decSweep (v : List Word) (sum : Word) : List Word :=
  (List.range (n + 1)).reverse.foldl (combineAt (· - ·) kxz k sum n) v

@[simp] theorem encSweep_length (v : List Word) (sum : Word) : (encSweep kxz k n v sum).length = v.length :=
  foldl_length (combineAt_length _ kxz k sum n) _ v

@[simp] theorem decSweep_length (v : List Word) (sum : Word) : (decSweep kxz k n v sum).length = v.length :=
  foldl_length (combineAt_length _ kxz k sum n) _ v

variable {n} {v : List Word} (sum : Word)

/-- R125: a round of DEC undoes the round of ENC with the same checksum. -/
theorem decSweep_encSweep (hn : 1 ≤ n) (hv : v.length = n + 1) :
    decSweep kxz k n (encSweep kxz k n v sum) sum = v :=
  foldl_reverse_foldl (P := fun v => v.length = n + 1) (List.range (n + 1))
    (fun _ _ _ hv => by rw [combineAt_length, hv])
    (fun _ _ hp hv => combineAt_combineAt _ _ _ BitVec.add_sub_cancel hn hv (List.mem_range.mp hp)) hv

/-- And a round of ENC the round of DEC. -/
theorem encSweep_decSweep (hn : 1 ≤ n) (hv : v.length = n + 1) :
    encSweep kxz k n (decSweep kxz k n v sum) sum = v :=
  foldl_foldl_reverse (P := fun v => v.length = n + 1) (List.range (n + 1))
    (fun _ _ _ hv => by rw [combineAt_length, hv])
    (fun _ _ hp hv => combineAt_combineAt _ _ _ BitVec.sub_add_cancel hn hv (List.mem_range.mp hp)) hv

/-! ### The sweeps and the rounds of the model -/

/-- An update of step 3c or 3d of R98 whose neighbours are those of the list. -/
theorem encMix_neighbours {p : Nat} (hp : p < v.length) :
    encMix kxz k sum v (v.getD ((p + n) % (n + 1)) 0) p (v.getD ((p + 1) % (n + 1)) 0)
      = (combineAt (· + ·) kxz k sum n v p, (combineAt (· + ·) kxz k sum n v p).getD p 0) :=
  Prod.ext rfl (getD_set_same hp _).symm

/-- An update of step 2b or 2c of R114 whose neighbours are those of the list. -/
theorem decMix_neighbours {p : Nat} (hp : p < v.length) :
    decMix kxz k sum v (v.getD ((p + 1) % (n + 1)) 0) p (v.getD ((p + n) % (n + 1)) 0)
      = (combineAt (· - ·) kxz k sum n v p, (combineAt (· - ·) kxz k sum n v p).getD p 0) :=
  Prod.ext rfl (getD_set_same hp _).symm

/-- The cyclic loop of R100, begun with the last word as `z`, carries the left neighbour of the next position. -/
theorem foldl_encMix_neighbours (hv : v.length = n + 1) (j : Nat) (hj : j ≤ n + 1) :
    (List.range j).foldl (fun c p => encMix kxz k sum c.1 c.2 p (c.1.getD ((p + 1) % (n + 1)) 0)) (v, v.getD n 0)
      = ((List.range j).foldl (combineAt (· + ·) kxz k sum n) v,
          ((List.range j).foldl (combineAt (· + ·) kxz k sum n) v).getD ((j + n) % (n + 1)) 0) := by
  induction j with
  | zero => simp
  | succ j ih =>
    have hlen := foldl_length (combineAt_length (· + ·) kxz k sum n) (List.range j) v
    simp only [List.range_succ, List.foldl_append, List.foldl_cons, List.foldl_nil, ih (by omega),
      leftIndex_of_succ (show j ≤ n by omega)]
    exact encMix_neighbours kxz k sum (by omega)

/-- The cyclic loop of R116, begun at position `j - 1` with its right neighbour as `y`, ends with the first word. -/
theorem foldl_decMix_neighbours (j : Nat) (hj : j ≤ n + 1) (hv : v.length = n + 1) :
    (List.range j).reverse.foldl (fun c p => decMix kxz k sum c.1 c.2 p (c.1.getD ((p + n) % (n + 1)) 0))
        (v, v.getD (j % (n + 1)) 0)
      = ((List.range j).reverse.foldl (combineAt (· - ·) kxz k sum n) v,
          ((List.range j).reverse.foldl (combineAt (· - ·) kxz k sum n) v).getD 0 0) := by
  induction j generalizing v with
  | zero => simp
  | succ j ih =>
    have hj' : j % (n + 1) = j := Nat.mod_eq_of_lt (by omega)
    have hnext := ih (v := combineAt (· - ·) kxz k sum n v j) (by omega) (by rw [combineAt_length, hv])
    rw [hj'] at hnext
    rw [List.range_succ, List.reverse_append, List.reverse_singleton, List.singleton_append, List.foldl_cons,
      List.foldl_cons, decMix_neighbours kxz k sum (v := v) (by omega), hnext]

/-- A round of R98 begun with the last word as `z` is a sweep, and ends so. -/
theorem encRound_eq_encSweep (hv : v.length = n + 1) : encRound kxz k n v (v.getD n 0) sum =
    (encSweep kxz k n v (sum + delta), (encSweep kxz k n v (sum + delta)).getD n 0, sum + delta) := by
  rw [forwardRoundIsCyclic kxz k n v _ sum hv, foldl_encMix_neighbours kxz k _ hv _ (Nat.le_refl _),
    leftIndex_of_succ (Nat.le_refl n), encSweep]

/-- A round of R114 begun with the first word as `y` is a sweep, and ends so. -/
theorem decRound_eq_decSweep (hv : v.length = n + 1) : decRound kxz k n v (v.getD 0 0) sum =
    (decSweep kxz k n v sum, (decSweep kxz k n v sum).getD 0 0, sum - delta) := by
  have h := foldl_decMix_neighbours kxz k sum (n + 1) (Nat.le_refl _) hv
  rw [Nat.mod_self] at h
  rw [inverseRoundIsCyclic kxz k n v _ sum hv, h, decSweep]

/-- The rounds of R98 after the first `j`: their checksums are the next multiples of DELTA. -/
theorem encRounds_eq_foldl (count j : Nat) (hv : v.length = n + 1) :
    (encRounds kxz k n count v (v.getD n 0) (terminalSum j)).1
      = ((List.range' (j + 1) count).map terminalSum).foldl (encSweep kxz k n) v := by
  induction count generalizing v j with
  | zero => rw [encRounds_zero, List.range'_zero, List.map_nil, List.foldl_nil]
  | succ count ih =>
    rw [encRounds_succ, encRound_eq_encSweep kxz k _ hv, ← terminalSum_succ, ih _ (by rw [encSweep_length, hv]),
      List.range'_succ, List.map_cons, List.foldl_cons]

/-- The last `count` rounds of R114: their checksums are the same multiples of DELTA, downwards. -/
theorem decRounds_eq_foldl (count : Nat) (hcount : count < 2 ^ 32) (hv : v.length = n + 1) :
    (decRounds kxz k n count v (v.getD 0 0) (terminalSum count)).1
      = ((List.range' 1 count).map terminalSum).reverse.foldl (decSweep kxz k n) v := by
  induction count generalizing v with
  | zero => rw [decRounds_zero, List.range'_zero, List.map_nil, List.reverse_nil, List.foldl_nil]
  | succ count ih =>
    have hz : terminalSum (count + 1) ≠ 0 := by
      rw [Ne, terminalSum_eq_zero_iff]
      exact Nat.not_dvd_of_pos_of_lt count.succ_pos hcount
    have hsum : terminalSum (count + 1) - delta = terminalSum count := by
      rw [terminalSum_succ, BitVec.add_sub_cancel]
    rw [decRounds_succ _ _ _ _ _ _ hz, decRound_eq_decSweep kxz k _ hv, hsum,
      ih (by omega) (by rw [decSweep_length, hv]), List.range'_1_concat, List.map_append, List.map_singleton,
      List.reverse_append, List.reverse_singleton, List.singleton_append, List.foldl_cons, Nat.add_comm 1 count]

/-- ENC: a sweep for each checksum `r * DELTA`, upwards. -/
theorem enc_eq_foldl (hv : v.length = n + 1) : enc kxz v k =
    ((List.range' 1 (roundCount (n + 1))).map terminalSum).foldl (encSweep kxz k n) v := by
  have h := encRounds_eq_foldl kxz k (roundCount (n + 1)) 0 hv
  rw [(terminalSum_eq_zero_iff 0).mpr (Nat.dvd_zero _)] at h
  rw [enc, hv, Nat.add_sub_cancel, h]

/-- DEC: a sweep for each checksum `r * DELTA`, downwards. -/
theorem dec_eq_foldl (hv : v.length = n + 1) : dec kxz v k =
    ((List.range' 1 (roundCount (n + 1))).map terminalSum).reverse.foldl (decSweep kxz k n) v := by
  rw [dec, hv, Nat.add_sub_cancel, decRounds_eq_foldl kxz k _ (roundCount_lt _) hv]

end

/-! ## The round trip on word lists (R126) -/

section
variable (kxz : Bool) (k : KeyFile) {v : List Word}

/-- DEC takes the rounds of ENC back, the last one first. -/
theorem dec_enc (hv : 2 ≤ v.length) : dec kxz (enc kxz v k) k = v := by
  obtain ⟨n, hn⟩ : ∃ n, v.length = n + 1 := ⟨v.length - 1, by omega⟩
  rw [enc_eq_foldl kxz k hn, dec_eq_foldl kxz k (by rw [foldl_length (encSweep_length kxz k n), hn])]
  exact foldl_reverse_foldl (P := fun v => v.length = n + 1) _ (fun _ _ _ hv => by rw [encSweep_length, hv])
    (fun _ _ _ hv => decSweep_encSweep kxz k _ (by omega) hv) hn

/-- ENC takes the rounds of DEC back, the last one first. -/
theorem enc_dec (hv : 2 ≤ v.length) : enc kxz (dec kxz v k) k = v := by
  obtain ⟨n, hn⟩ : ∃ n, v.length = n + 1 := ⟨v.length - 1, by omega⟩
  rw [dec_eq_foldl kxz k hn, enc_eq_foldl kxz k (by rw [foldl_length (decSweep_length kxz k n), hn])]
  exact foldl_foldl_reverse (P := fun v => v.length = n + 1) _ (fun _ _ _ hv => by rw [decSweep_length, hv])
    (fun _ _ _ hv => encSweep_decSweep kxz k _ (by omega) hv) hn

end

/-! ## The round trip in memory (R126) -/

/-- The bytes of a word are those memory holds (R50). -/
theorem bytesOfWord_readWord (m : Memory) (bo : ByteOrder) (a : Nat) :
    bytesOfWord bo (m.readWord bo a) = [m.read a, m.read (a + 1), m.read (a + 2), m.read (a + 3)] :=
  bytesOfWord_wordOfBytes ..

/-- Memories that hold equal words in a region hold equal bytes there. -/
theorem read_eq_of_words_eq {m m' : Memory} {bo : ByteOrder} {a count : Nat}
    (h : m.words bo a count = m'.words bo a count) {b : Nat} (hb : inRegion a (4 * count) b) :
    m.read b = m'.read b := by
  obtain ⟨hlo, hhi⟩ := hb
  obtain ⟨p, i, hi, rfl⟩ : ∃ p i, i < 4 ∧ b = a + 4 * p + i :=
    ⟨(b - a) / 4, (b - a) % 4, Nat.mod_lt _ (by decide), by omega⟩
  have hword : m.readWord bo (a + 4 * p) = m'.readWord bo (a + 4 * p) := by
    rw [← words_getD (by omega : p < count) 0, h, words_getD (by omega)]
  have hbytes := congrArg (bytesOfWord bo) hword
  simp only [bytesOfWord_readWord, List.cons.injEq, and_true] at hbytes
  obtain ⟨h0, h1, h2, h3⟩ := hbytes
  interval_cases i <;> assumption

/-- What a command that runs the transform `f` leaves, as far as the next command with the same operands depends on it:
an idle engine, the parameters, `f` of the data words, and all else in memory as before. -/
structure Transforms (f : Bool → List Word → KeyFile → List Word) (da dl ka : Nat) (s t : State) : Prop where
  idle : t.seq = .idle
  cfg : t.cfg = s.cfg
  words : t.dataWordsAt da dl = f s.cfg.keyXorZ (s.dataWordsAt da dl) (s.keyWordsAt ka)
  outside : ∀ a, ¬ inRegion da dl a → t.mem.read a = s.mem.read a

section
variable {s t u : State} {da dl ka kl : Nat} {f g : Bool → List Word → KeyFile → List Word}

theorem exec_encrypt_transforms (h : CanRun s da dl ka kl) :
    ∃ t, exec (.encrypt da dl ka kl) s = .next t ∧ Transforms enc da dl ka s t := by
  obtain ⟨t, hrun, hsame, hidle, -, -, -, hw⟩ := encrypt_run h
  exact ⟨t, (exec_encrypt_idle h.idle).trans hrun.runBusy, hidle, hsame.cfg_eq, hw, hsame.outside⟩

theorem exec_decrypt_transforms (h : CanRun s da dl ka kl) :
    ∃ t, exec (.decrypt da dl ka kl) s = .next t ∧ Transforms dec da dl ka s t := by
  obtain ⟨t, hrun, hsame, hidle, -, -, -, hw⟩ := decrypt_run h
  exact ⟨t, (exec_decrypt_idle h.idle).trans hrun.runBusy, hidle, hsame.cfg_eq, hw, hsame.outside⟩

namespace Transforms

/-- The next command with the same operands can run. -/
theorem canRun (ht : Transforms f da dl ka s t) (h : CanRun s da dl ka kl) : CanRun t da dl ka kl :=
  ⟨ht.idle, h.pre, ht.cfg ▸ h.regions⟩

/-- A key region that is disjoint from the data region still holds its words (R58). -/
theorem keyWordsAt_eq (ht : Transforms f da dl ka s t) (h : CanRun s da dl ka kl) :
    t.keyWordsAt ka = s.keyWordsAt ka := by
  have hkl := h.pre.keyLen
  have hdl := h.pre.twoWords
  have hdisjoint := h.regions.disjoint
  have hword : ∀ i, i ≤ 12 →
      t.mem.readWord s.cfg.byteOrder (ka + i) = s.mem.readWord s.cfg.byteOrder (ka + i) := fun i hi =>
    readWord_congr _ fun a ha => ht.outside a (by simp only [inRegion, regionsMeet, wordCount] at *; omega)
  simp only [State.keyWordsAt, ht.cfg, hword 4 (by decide), hword 8 (by decide), hword 12 (by decide)]
  rw [← Nat.add_zero ka, hword 0 (by decide)]

/-- A transform and then its inverse give back every byte of memory. -/
theorem restores (ht : Transforms f da dl ka s t) (hu : Transforms g da dl ka t u) (h : CanRun s da dl ka kl)
    (hgf : ∀ (kxz : Bool) (v : List Word) (k : KeyFile), 2 ≤ v.length → g kxz (f kxz v k) k = v) (a : Nat) :
    u.mem.read a = s.mem.read a := by
  by_cases ha : inRegion da dl a
  · have hwords : u.dataWordsAt da dl = s.dataWordsAt da dl := by
      rw [hu.words, ht.words, ht.keyWordsAt_eq h, ht.cfg]
      exact hgf _ _ _ ((words_length ..).symm ▸ h.pre.twoWords)
    simp only [State.dataWordsAt, hu.cfg, ht.cfg] at hwords
    have hlen : 4 * wordCount dl = dl := Nat.mul_div_cancel' (Nat.dvd_of_mod_eq_zero h.pre.dataLen)
    exact read_eq_of_words_eq hwords (hlen.symm ▸ ha)
  · rw [hu.outside a ha, ht.outside a ha]

end Transforms

end

/-- Settles O19: the rounds undo each other in the opposite order, and words determine their bytes. -/
theorem roundTrip : Obligations.RoundTrip := by
  refine ⟨fun kxz v k hv => ⟨dec_enc kxz k hv, enc_dec kxz k hv⟩, fun s da dl ka kl h => ⟨?_, ?_⟩⟩
  · obtain ⟨t, hexec, ht⟩ := exec_encrypt_transforms h
    obtain ⟨u, hexec', hu⟩ := exec_decrypt_transforms (ht.canRun h)
    exact ⟨t, u, hexec, hexec', ht.restores hu h fun kxz _ k hv => dec_enc kxz k hv⟩
  · obtain ⟨t, hexec, ht⟩ := exec_decrypt_transforms h
    obtain ⟨u, hexec', hu⟩ := exec_encrypt_transforms (ht.canRun h)
    exact ⟨t, u, hexec, hexec', ht.restores hu h fun kxz _ k hv => enc_dec kxz k hv⟩

end Sys2Proof.Machine
end

section
/-! PROOFS. The boundary (spec/43_boundary.md): what CHECK decides, what KEYLOAD loads, and what a presentation does in
each state of the engine. -/

namespace Sys2Proof.Machine

/-! ## CHECK (R133, R155) -/

/-! What `firstViolation` answers, precondition by precondition in the order of R133. -/
section
variable {da dl ka kl : Nat}

theorem firstViolation_of_dataLen (h : dl % 4 ≠ 0) : firstViolation da dl ka kl = some (1, dl) := if_pos h

theorem firstViolation_of_dataAddr (h1 : dl % 4 = 0) (h : da % 4 ≠ 0) : firstViolation da dl ka kl = some (2, da) := by
  rw [firstViolation, if_neg (not_not.mpr h1), if_pos h]

theorem firstViolation_of_keyLen (h1 : dl % 4 = 0) (h2 : da % 4 = 0) (h : kl ≠ 16) :
    firstViolation da dl ka kl = some (3, kl) := by
  rw [firstViolation, if_neg (not_not.mpr h1), if_neg (not_not.mpr h2), if_pos h]

theorem firstViolation_of_keyAddr (h1 : dl % 4 = 0) (h2 : da % 4 = 0) (h3 : kl = 16) (h : ka % 4 ≠ 0) :
    firstViolation da dl ka kl = some (4, ka) := by
  rw [firstViolation, if_neg (not_not.mpr h1), if_neg (not_not.mpr h2), if_neg (not_not.mpr h3), if_pos h]

theorem firstViolation_of_tooShort (h1 : dl % 4 = 0) (h2 : da % 4 = 0) (h3 : kl = 16) (h4 : ka % 4 = 0)
    (h : dl / 4 < 2) : firstViolation da dl ka kl = some (5, dl) := by
  rw [firstViolation, if_neg (not_not.mpr h1), if_neg (not_not.mpr h2), if_neg (not_not.mpr h3),
    if_neg (not_not.mpr h4), if_pos h]

end

/-- CHECK of a descriptor that violates a precondition raises the exception with the first one's code and value. -/
theorem seqStep_check_violation {s : State} {code : BitVec 3} {info : Nat} (hs : s.seq = .check)
    (hv : firstViolation s.dataAddr s.dataLen s.keyAddr s.keyLen = some (code, info)) :
    seqStep s = .next (s.raise code info) :=
  seqStep_of_row_at hs (by decide) (.violation code info hs hv)

/-- Settles O7: the first violation case by case, each the row of R31 from CHECK to FAULT; with none, the row to
KEYLOAD. -/
theorem checkStepDecides : Obligations.CheckStepDecides := fun _ hs =>
  ⟨fun h => seqStep_check_violation hs (firstViolation_of_dataLen h),
    fun h1 h => seqStep_check_violation hs (firstViolation_of_dataAddr h1 h),
    fun h1 h2 h => seqStep_check_violation hs (firstViolation_of_keyLen h1 h2 h),
    fun h1 h2 h3 h => seqStep_check_violation hs (firstViolation_of_keyAddr h1 h2 h3 h),
    fun h1 h2 h3 h4 h => seqStep_check_violation hs (firstViolation_of_tooShort h1 h2 h3 h4 h),
    fun h1 h2 h3 h4 h => seqStep_of_row_at hs (by decide) (.valid hs ⟨h1, h2, h3, h4, h⟩)⟩

/-! ## KEYLOAD (R137) -/

theorem firstStep_eq_ite (o : Op) : o.firstStep = if o = .encrypt then .fInit else .iInit := by cases o <;> rfl

/-- Settles O37: the row of R31 at KEYLOAD, with its dispatch on OP written out. -/
theorem keyloadStep : Obligations.KeyloadStep := by
  intro s hs hp hr
  rw [← firstStep_eq_ite]
  exact seqStep_of_row (.keyload hs hr) fun _ => hp

/-! ## The port while a command runs (R129)

No step of a BUSY engine reads or writes the port, so replacing what stands there before the step or after it is the
same, even when the step stops. -/

/-- The state with `q` at the command port, and nothing else changed. -/
def State.withPort (q : Option Nat) (s : State) : State := { s with port := q }

/-- The outcome of a step with `q` at the command port of the next state, if there is one. -/
def replacePort (q : Option Nat) (r : Result) : Result := andThen r fun t => .next (t.withPort q)

section
variable (s : State) (q : Option Nat)

/-- An access looks at memory only, so it commutes with a change of the port when the rest of the step does. -/
theorem loadWord_withPort (a : Nat) {rest rest' : Word → Result} (h : ∀ w, rest' w = replacePort q (rest w)) :
    loadWord (s.withPort q) a rest' = replacePort q (loadWord s a rest) :=
  (congrArg (atPort s.cfg a) (h _)).trans (andThen_atPort s.cfg a _ _).symm

theorem storeWord_withPort (a : Nat) (w : Word) {rest rest' : State → Result}
    (h : ∀ t : State, rest' (t.withPort q) = replacePort q (rest t)) :
    storeWord (s.withPort q) a w rest' = replacePort q (storeWord s a w rest) :=
  (congrArg (atPort s.cfg a) (h { s with mem := s.mem.writeWord s.cfg.byteOrder a w })).trans
    (andThen_atPort s.cfg a _ _).symm

theorem mixForward_withPort (i : Nat) {after : State → State}
    (h : ∀ t : State, after (t.withPort q) = (after t).withPort q) :
    mixForward (s.withPort q) i after = replacePort q (mixForward s i after) :=
  loadWord_withPort s q _ fun y => loadWord_withPort s q _ fun v => storeWord_withPort s q _ _ fun t =>
    congrArg Host.Outcome.next (h { t with y := y, z := v + s.mixValue y s.z })

theorem mixInverse_withPort (i : Nat) {after : State → State}
    (h : ∀ t : State, after (t.withPort q) = (after t).withPort q) :
    mixInverse (s.withPort q) i after = replacePort q (mixInverse s i after) :=
  loadWord_withPort s q _ fun z => loadWord_withPort s q _ fun v => storeWord_withPort s q _ _ fun t =>
    congrArg Host.Outcome.next (h { t with z := z, y := v - s.mixValue s.y z })

/-- A branch whose condition does not look at the port commutes with a change of it when both its arms do. -/
theorem ite_replacePort {c : Prop} [Decidable c] {r r' u u' : Result} (h : u = replacePort q r)
    (h' : u' = replacePort q r') : (if c then u else u') = replacePort q (if c then r else r') := by
  rw [h, h']
  exact (andThen_ite c r r' _).symm

/-! The steps at the positions of R31 where STATE is BUSY. -/

theorem stepCheck_withPort : stepCheck (s.withPort q) = replacePort q (stepCheck s) := by
  change stepCheck { s with port := q } = _
  unfold stepCheck
  cases firstViolation s.dataAddr s.dataLen s.keyAddr s.keyLen <;> rfl

theorem stepKeyload_withPort : stepKeyload (s.withPort q) = replacePort q (stepKeyload s) := by
  refine Eq.trans ?_ (andThen_refuseRegions s.cfg s.dataAddr s.dataLen s.keyAddr s.keyLen _ _).symm
  exact congrArg (refuseRegions s.cfg s.dataAddr s.dataLen s.keyAddr s.keyLen) <|
    loadWord_withPort s q _ fun _ => loadWord_withPort s q _ fun _ => loadWord_withPort s q _ fun _ =>
      loadWord_withPort s q _ fun _ => rfl

theorem stepFInit_withPort : stepFInit (s.withPort q) = replacePort q (stepFInit s) :=
  loadWord_withPort s q _ fun _ => rfl

theorem stepFRound_withPort : stepFRound (s.withPort q) = replacePort q (stepFRound s) :=
  ite_replacePort q rfl rfl

theorem stepFMix_withPort : stepFMix (s.withPort q) = replacePort q (stepFMix s) :=
  ite_replacePort q (mixForward_withPort s q _ fun _ => rfl) <|
    ite_replacePort q (mixForward_withPort s q _ fun _ => rfl) rfl

theorem stepIInit_withPort : stepIInit (s.withPort q) = replacePort q (stepIInit s) :=
  loadWord_withPort s q _ fun _ => rfl

theorem stepITest_withPort : stepITest (s.withPort q) = replacePort q (stepITest s) :=
  ite_replacePort q rfl rfl

theorem stepIMix_withPort : stepIMix (s.withPort q) = replacePort q (stepIMix s) :=
  ite_replacePort q (mixInverse_withPort s q _ fun _ => rfl) (mixInverse_withPort s q _ fun _ => rfl)

end

/-- A BUSY engine's step is the same whatever stands at the port, and leaves what stands there (R129). -/
theorem seqStep_withPort {s : State} (hb : s.seq.busy) (q : Option Nat) :
    seqStep (s.withPort q) = replacePort q (seqStep s) := by
  have hq : (s.withPort q).seq = s.seq := rfl
  cases hs : s.seq <;> simp only [seqStep, hq, hs]
  case idle => exact absurd hs hb.1
  case check => exact stepCheck_withPort s q
  case keyload => exact stepKeyload_withPort s q
  case fInit => exact stepFInit_withPort s q
  case fRound => exact stepFRound_withPort s q
  case fMix => exact stepFMix_withPort s q
  case iInit => exact stepIInit_withPort s q
  case iTest => exact stepITest_withPort s q
  case iMix => exact stepIMix_withPort s q
  case iNext => rfl
  case fault => exact absurd hs hb.2

/-- Settles O5: IDLE and FAULT are rows of R31, and a BUSY engine's step commutes with a change of the port. -/
theorem presentationByState : Obligations.PresentationByState := fun s q =>
  ⟨fun hs => seqStep_of_row_at hs (by decide) (.rest hs rfl),
    fun d i hs hd => ⟨_, seqStep_of_row_at hs (by decide) (.accept d i hs rfl hd), accept_seq _ i⟩,
    fun hi hf => seqStep_withPort ⟨hi, hf⟩ q,
    fun hs => seqStep_of_row_at hs (by decide) (.stopped hs)⟩

end Sys2Proof.Machine
end

section
/-! PROOFS. Exceptions (spec/60_exceptions.md): which fault is reported, what a faulting command leaves behind, and what
FAULT lets happen. -/

namespace Sys2Proof.Machine

/-! ## Priority (R152) -/

/-- The reported code and value: the violated precondition before which, in the order of R133, all hold. -/
theorem firstViolation_eq_some_iff {da dl ka kl : Nat} {code : BitVec 3} {info : Nat} :
    firstViolation da dl ka kl = some (code, info) ↔
      (code = 1 ∧ info = dl ∧ dl % 4 ≠ 0)
      ∨ (code = 2 ∧ info = da ∧ da % 4 ≠ 0 ∧ dl % 4 = 0)
      ∨ (code = 3 ∧ info = kl ∧ kl ≠ 16 ∧ dl % 4 = 0 ∧ da % 4 = 0)
      ∨ (code = 4 ∧ info = ka ∧ ka % 4 ≠ 0 ∧ dl % 4 = 0 ∧ da % 4 = 0 ∧ kl = 16)
      ∨ (code = 5 ∧ info = dl ∧ dl / 4 < 2 ∧ dl % 4 = 0 ∧ da % 4 = 0 ∧ kl = 16 ∧ ka % 4 = 0) := by
  constructor
  · intro h
    rcases ne_or_eq (dl % 4) 0 with h1 | h1
    · rw [firstViolation_of_dataLen h1] at h
      cases h; exact .inl ⟨rfl, rfl, h1⟩
    rcases ne_or_eq (da % 4) 0 with h2 | h2
    · rw [firstViolation_of_dataAddr h1 h2] at h
      cases h; exact .inr (.inl ⟨rfl, rfl, h2, h1⟩)
    rcases ne_or_eq kl 16 with h3 | h3
    · rw [firstViolation_of_keyLen h1 h2 h3] at h
      cases h; exact .inr (.inr (.inl ⟨rfl, rfl, h3, h1, h2⟩))
    rcases ne_or_eq (ka % 4) 0 with h4 | h4
    · rw [firstViolation_of_keyAddr h1 h2 h3 h4] at h
      cases h; exact .inr (.inr (.inr (.inl ⟨rfl, rfl, h4, h1, h2, h3⟩)))
    rcases lt_or_ge (dl / 4) 2 with h5 | h5
    · rw [firstViolation_of_tooShort h1 h2 h3 h4 h5] at h
      cases h; exact .inr (.inr (.inr (.inr ⟨rfl, rfl, h5, h1, h2, h3, h4⟩)))
    · rw [firstViolation_eq_none.mpr ⟨h1, h2, h3, h4, h5⟩] at h
      cases h
  · rintro (⟨rfl, rfl, h⟩ | ⟨rfl, rfl, h, h1⟩ | ⟨rfl, rfl, h, h1, h2⟩ | ⟨rfl, rfl, h, h1, h2, h3⟩
      | ⟨rfl, rfl, h, h1, h2, h3, h4⟩)
    · exact firstViolation_of_dataLen h
    · exact firstViolation_of_dataAddr h1 h
    · exact firstViolation_of_keyLen h1 h2 h
    · exact firstViolation_of_keyAddr h1 h2 h3 h
    · exact firstViolation_of_tooShort h1 h2 h3 h4 h

/-- Settles O8: the two answers of `firstViolation`, a violation and none, each characterised. -/
theorem lowestCodeIsReported : Obligations.LowestCodeIsReported := fun _ _ _ _ _ _ =>
  ⟨firstViolation_eq_some_iff, firstViolation_eq_none⟩

/-! ## Fault entry (R154) -/

/-- Settles O9: the run is acceptance and then the exception of CHECK, and nothing before, between or after. -/
theorem faultingCommandChangesNothingElse : Obligations.FaultingCommandChangesNothingElse :=
  fun _ _ _ _ _ _ _ hs hv => ⟨⟨_, exec_violation (.inl rfl) hs hv, rfl⟩, ⟨_, exec_violation (.inr rfl) hs hv, rfl⟩⟩

/-! ## The state after a fault (R157) -/

/-- A turn taken in FAULT, other than reset, writes at most the port and memory, and memory only if it is the host's
write. -/
theorem takeTurn_of_fault {s t : State} {turn : Turn} (hs : s.seq = .fault) (hreset : turn ≠ .reset)
    (h : takeTurn turn s = .next t) :
    ∃ m q, t = { s with mem := m, port := q } ∧ ((∀ a b, turn ≠ .write a b) → m = s.mem) := by
  cases turn with
  | tick =>
    have hstep : seqStep s = .next s := seqStep_of_row_at hs (by decide) (.stopped hs)
    cases hstep.symm.trans h
    exact ⟨_, _, rfl, fun _ => rfl⟩
  | wait =>
    have hwait : takeTurn .wait s = .next s := if_pos (.inl hs)
    cases hwait.symm.trans h
    exact ⟨_, _, rfl, fun _ => rfl⟩
  | present d =>
    simp only [takeTurn] at h
    split at h
    · cases h; exact ⟨_, _, rfl, fun _ => rfl⟩
    · cases h
  | withdraw => cases h; exact ⟨_, _, rfl, fun _ => rfl⟩
  | write a b =>
    obtain ⟨-, -, rfl⟩ := hostAccess_next h
    exact ⟨_, _, rfl, fun hw => absurd rfl (hw a b)⟩
  | read a =>
    obtain ⟨-, -, rfl⟩ := hostAccess_next h
    exact ⟨_, _, rfl, fun _ => rfl⟩
  | readStatus => cases h; exact ⟨_, _, rfl, fun _ => rfl⟩
  | reset => exact absurd rfl hreset

/-- Settles O11: the turns other than reset as `takeTurn_of_fault` says, and the reset as `State.resetBy` does it. -/
theorem faultIsSticky : Obligations.FaultIsSticky := by
  intro s turn rest hs hturns
  rw [step_of_turn hturns]
  constructor
  · intro hreset t h
    obtain ⟨m, q, rfl, hmem⟩ := takeTurn_of_fault (s := { s with turns := rest }) hs hreset h
    exact ⟨hs, rfl, rfl, rfl, rfl, rfl, rfl, rfl, rfl, rfl, rfl, rfl, rfl, rfl, rfl, rfl, hmem⟩
  · rintro rfl
    exact ⟨_, rfl, resetBy_seq _, resetBy_errCode _⟩

end Sys2Proof.Machine
end

section
/-! PROOFS. Reset and hazards (spec/70_reset_and_hazards.md): what a reset leaves, how many steps a command takes, and
that data and key values decide none of them. -/

namespace Sys2Proof.Machine

/-! ## How many steps a command takes (R180) -/

section
variable {s t : State} {d : Nat} {i : Instr}

/-- The step of an idle engine with a command presented is acceptance (R130). -/
theorem seqStep_of_presented (hs : s.seq = .idle) (hp : s.port = some d) (hd : decode s.cfg d = .ok i) :
    seqStep s = .next (s.accept i) := seqStep_of_row_at hs (by decide) (.accept d i hs hp hd)

/-- Acceptance is one step more than the run that follows it, and BUSY begins with it. -/
theorem BusyRun.ticks_of_accept {k count : Nat} (hrun : BusyRun k (s.accept i) t)
    (haccept : seqStep s = .next (s.accept i)) (hcount : count = k + 1) :
    (∀ j, 1 ≤ j → j < count → ∃ u, ticks j s = .next u ∧ u.seq.status = .busy) ∧ ticks count s = .next t := by
  have hsucc : ∀ j, ticks (j + 1) s = ticks j (s.accept i) := fun j => by rw [ticks_succ, haccept, andThen_next]
  subst hcount
  refine ⟨fun j hj hlt => ?_, (hsucc k).trans hrun.run⟩
  obtain ⟨j, rfl⟩ := Nat.exists_eq_add_of_le' hj
  obtain ⟨u, hu, hb⟩ := hrun.busy j (Nat.lt_of_succ_lt_succ hlt)
  exact ⟨u, (hsucc j).trans hu, (status_busy_iff _).mpr hb⟩

/-- A descriptor that violates a precondition is BUSY for CHECK alone, which raises the exception (R154). -/
theorem ticks_of_violation {da dl ka kl : Nat} (hi : i = .encrypt da dl ka kl ∨ i = .decrypt da dl ka kl)
    (haccept : seqStep s = .next (s.accept i)) (hv : ¬ PreconditionsHold da dl ka kl) :
    (∃ u, ticks 1 s = .next u ∧ u.seq.status = .busy) ∧ ∃ t, ticks 2 s = .next t ∧ t.seq = .fault := by
  obtain ⟨⟨code, info⟩, hv⟩ := Option.ne_none_iff_exists'.mp (mt firstViolation_eq_none.mp hv)
  have hcheck : seqStep (s.accept i) = .next ((s.accept i).raise code info) := by
    rcases hi with rfl | rfl <;> exact seqStep_check_violation rfl hv
  have hbusy : BusyRun 1 (s.accept i) ((s.accept i).raise code info) := .single (by rw [accept_seq]; decide) hcheck
  obtain ⟨hone, htwo⟩ := hbusy.ticks_of_accept haccept rfl
  exact ⟨hone 1 (by decide) (by decide), _, htwo, raise_seq ..⟩

end

/-- Settles O25: acceptance is one step, and the pass takes the steps that the simulation of ENC or DEC counts. -/
theorem stepCounts : Obligations.StepCounts := by
  intro s d da dl ka kl hs hp
  refine ⟨fun hd hcan => ?_, fun hd hcan => ?_, fun hd hv => ?_⟩
  · obtain ⟨t, hrun, -, hidle, -⟩ := encrypt_run hcan
    obtain ⟨hbusy, hend⟩ := hrun.ticks_of_accept (i := .encrypt da dl ka kl) (seqStep_of_presented hs hp hd)
      (Nat.succ_add 4 _)
    exact ⟨hbusy, t, hend, hidle, (exec_encrypt_idle hs).trans hrun.runBusy⟩
  · obtain ⟨t, hrun, -, hidle, -⟩ := decrypt_run hcan
    obtain ⟨hbusy, hend⟩ := hrun.ticks_of_accept (i := .decrypt da dl ka kl) (seqStep_of_presented hs hp hd)
      (Nat.succ_add 4 _)
    exact ⟨hbusy, t, hend, hidle, (exec_decrypt_idle hs).trans hrun.runBusy⟩
  · rcases hd with hd | hd
    · exact ticks_of_violation (.inl rfl) (seqStep_of_presented hs hp hd) hv
    · exact ticks_of_violation (.inr rfl) (seqStep_of_presented hs hp hd) hv

/-! ## Reset (R166, R168) -/

/-- A reset writes no byte outside the data region of a running command, and none when no command runs. -/
theorem read_resetBy_outside {s : State} {a : Nat} (h : ¬ inRegion s.dataAddr s.dataLen a) :
    s.resetBy.mem.read a = s.mem.read a := by
  by_cases hb : s.seq.busy
  · rw [resetBy_mem_of_busy s hb, read_scramble_outside h]
  · rw [resetBy_mem_of_not_busy s hb]

/-- Settles O13: the turn is `State.resetBy`, whose free values lie in the data region. -/
theorem resetInAnyState : Obligations.ResetInAnyState := by
  intro s rest hturns
  refine ⟨_, step_of_turn hturns, resetBy_seq _, resetBy_errCode _, resetBy_errInfo _, resetBy_cfg _, resetBy_turns _,
    fun hb => ?_, fun a ha => read_resetBy_outside ha⟩
  exact resetBy_mem_of_not_busy { s with turns := rest } (mt (status_busy_iff s.seq).mpr hb)

/-! ## What decides the steps (R181) -/

/-- `r` with what decides the steps of `s` at position `q`: the width of an address, the position, the latches and the
port; inside a pass the counters and the checksum; at a mix step the index. The rest of `r` is data, key, byte order
and leftovers. -/
def State.withControl (r : State) (q : Seq) (s : State) : State :=
  let r := { r with
    cfg := { r.cfg with addrW := s.cfg.addrW }, seq := s.seq, op := s.op, dataAddr := s.dataAddr, dataLen := s.dataLen
    keyAddr := s.keyAddr, keyLen := s.keyLen, port := s.port }
  match q with
  | .fMix | .iMix => { r with nw := s.nw, n := s.n, rnd := s.rnd, sum := s.sum, p := s.p }
  | .fRound | .iTest | .iNext => { r with nw := s.nw, n := s.n, rnd := s.rnd, sum := s.sum }
  | .idle | .check | .keyload | .fInit | .iInit | .fault => r

section
variable (r s : State) (q : Seq)

@[simp] theorem withControl_seq : (r.withControl q s).seq = s.seq := by cases q <;> rfl
@[simp] theorem withControl_dataAddr : (r.withControl q s).dataAddr = s.dataAddr := by cases q <;> rfl
@[simp] theorem withControl_dataLen : (r.withControl q s).dataLen = s.dataLen := by cases q <;> rfl
@[simp] theorem withControl_keyAddr : (r.withControl q s).keyAddr = s.keyAddr := by cases q <;> rfl
@[simp] theorem withControl_keyLen : (r.withControl q s).keyLen = s.keyLen := by cases q <;> rfl

/-- The first step of either pass has the latches alone. -/
theorem withControl_firstStep (o : Op) : r.withControl o.firstStep s = r.withControl .fInit s := by cases o <;> rfl

variable {q} in
theorem withControl_counts (hq : q.inPass) : (r.withControl q s).nw = s.nw ∧ (r.withControl q s).n = s.n
    ∧ (r.withControl q s).rnd = s.rnd ∧ (r.withControl q s).sum = s.sum := by
  cases q with
  | fRound | fMix | iTest | iMix | iNext => exact ⟨rfl, rfl, rfl, rfl⟩
  | idle | check | keyload | fInit | iInit | fault => exact absurd hq (by decide)

variable {q} in
theorem withControl_p (hq : q = .fMix ∨ q = .iMix) : (r.withControl q s).p = s.p := by
  rcases hq with rfl | rfl <;> rfl

end

/-- Once the port is empty it stays so: acceptance empties it (log 6), and no step fills it. -/
theorem SeqRow.port_eq_none {s t : State} (h : SeqRow s t) (hp : s.port = none) : t.port = none := by
  cases h with
  | accept d i => exact accept_port s i
  | _ => exact hp

/-- A row with nothing at the port is decided by the control alone: it is taken whatever data, key and leftovers are,
and the control after it is the same. -/
theorem SeqRow.withControl {s t : State} (h : SeqRow s t) (hport : s.port = none) (r : State) :
    ∃ t', SeqRow (r.withControl s.seq s) t' ∧ t' = t'.withControl t.seq t := by
  cases h with
  | accept d i hs hp hd => rw [hport] at hp; cases hp
  | rest hs hp => rw [hs]; exact ⟨_, .rest hs hp, rfl⟩
  | violation code info hs hv => rw [hs]; exact ⟨_, .violation code info hs hv, rfl⟩
  | valid hs hv => rw [hs]; exact ⟨_, .valid hs hv, rfl⟩
  | keyload hs hr =>
    rw [hs]
    refine ⟨_, .keyload hs ⟨hr.dataHeld, hr.keyHeld, hr.disjoint⟩, ?_⟩
    change _ = State.withControl _ s.op.firstStep _
    rw [withControl_firstStep]
    rfl
  | fInit hs hc => rw [hs]; exact ⟨_, .fInit hs hc, rfl⟩
  | fRoundOn hs hr => rw [hs]; exact ⟨_, .fRoundOn hs hr, rfl⟩
  | fRoundEnd hs hr => rw [hs]; exact ⟨_, .fRoundEnd hs hr, rfl⟩
  | fMixOn hs hp hq hc => rw [hs]; exact ⟨_, .fMixOn hs hp hq hc, rfl⟩
  | fMixEnd hs hp hq hc => rw [hs]; exact ⟨_, .fMixEnd hs hp hq hc, rfl⟩
  | iInit hs hc => rw [hs]; exact ⟨_, .iInit hs hc, rfl⟩
  | iTestOn hs hz => rw [hs]; exact ⟨_, .iTestOn hs hz, rfl⟩
  | iTestEnd hs hz => rw [hs]; exact ⟨_, .iTestEnd hs hz, rfl⟩
  | iMixOn hs hp hq hc => rw [hs]; exact ⟨_, .iMixOn hs hp hq hc, rfl⟩
  | iMixEnd hs hp hq hc => rw [hs]; exact ⟨_, .iMixEnd hs hp hq hc, rfl⟩
  | iNext hs => rw [hs]; exact ⟨_, .iNext hs, rfl⟩
  | stopped hs => rw [hs]; exact ⟨_, .stopped hs, rfl⟩

/-- `s` and `t` are engines at one point of one command and have one control; nothing more is presented, and they are in
KEYLOAD after a passed CHECK only. -/
structure SameControl (s t : State) : Prop where
  control : t = t.withControl s.seq s
  port : s.port = none
  checked : s.seq = .keyload → PreconditionsHold s.dataAddr s.dataLen s.keyAddr s.keyLen

namespace SameControl
variable {s₁ s₂ t₁ : State}

theorem seq_eq (h : SameControl s₁ s₂) : s₂.seq = s₁.seq := by rw [h.control, withControl_seq]

theorem dataAddr_eq (h : SameControl s₁ s₂) : s₂.dataAddr = s₁.dataAddr := by rw [h.control, withControl_dataAddr]

theorem dataLen_eq (h : SameControl s₁ s₂) : s₂.dataLen = s₁.dataLen := by rw [h.control, withControl_dataLen]

theorem keyAddr_eq (h : SameControl s₁ s₂) : s₂.keyAddr = s₁.keyAddr := by rw [h.control, withControl_keyAddr]

theorem counts_eq (h : SameControl s₁ s₂) (hq : s₁.seq.inPass) :
    s₂.nw = s₁.nw ∧ s₂.n = s₁.n ∧ s₂.rnd = s₁.rnd ∧ s₂.sum = s₁.sum := by
  rw [h.control]; exact withControl_counts s₂ s₁ hq

theorem p_eq (h : SameControl s₁ s₂) (hq : s₁.seq = .fMix ∨ s₁.seq = .iMix) : s₂.p = s₁.p := by
  rw [h.control, withControl_p s₂ s₁ hq]

/-- Where one engine takes a step the other takes the same. -/
theorem of_seqStep (h : SameControl s₁ s₂) (ht : seqStep s₁ = .next t₁) :
    ∃ t₂, seqStep s₂ = .next t₂ ∧ SameControl t₁ t₂ := by
  have hrow₁ := seqStep_row ht
  obtain ⟨t₂, hrow₂, hcontrol⟩ := hrow₁.withControl h.port s₂
  rw [← h.control] at hrow₂
  refine ⟨t₂, seqStep_of_row hrow₂ fun hk => ?_, hcontrol, hrow₁.port_eq_none h.port, hrow₁.preconditions_of_keyload⟩
  rw [h.control]
  simpa using h.checked (h.seq_eq.symm.trans hk)

/-- Where one engine takes any number of steps the other takes the same. -/
theorem of_ticks {k : Nat} (h : SameControl s₁ s₂) (ht : ticks k s₁ = .next t₁) :
    ∃ t₂, ticks k s₂ = .next t₂ ∧ SameControl t₁ t₂ := by
  induction k generalizing s₁ s₂ with
  | zero => cases ht; exact ⟨s₂, rfl, h⟩
  | succ k ih =>
    obtain ⟨u₁, hu₁, ht⟩ := andThen_eq_next ht
    obtain ⟨u₂, hu₂, hu⟩ := h.of_seqStep hu₁
    obtain ⟨t₂, ht₂, hend⟩ := ih hu ht
    exact ⟨t₂, by rw [ticks_succ, hu₂, andThen_next, ht₂], hend⟩

/-- Two engines of one address width that accept one command have one control. -/
theorem of_accept (hw : s₁.cfg.addrW = s₂.cfg.addrW) (i : Instr) : SameControl (s₁.accept i) (s₂.accept i) := by
  refine ⟨?_, accept_port s₁ i, fun hk => by rw [accept_seq] at hk; cases hk⟩
  rw [accept_seq]
  cases i <;> simp only [accept_encrypt, accept_decrypt, State.latch, State.withControl, hw]

end SameControl

/-- Settles O29: the two engines have one control after every number of steps. -/
theorem stepsIgnoreDataAndKey : Obligations.StepsIgnoreDataAndKey := by
  intro i s₁ s₂ u₁ k _ _ hw hu₁
  obtain ⟨u₂, hu₂, h⟩ := (SameControl.of_accept hw i).of_ticks hu₁
  exact ⟨u₂, hu₂, h.seq_eq, h.dataAddr_eq, h.dataLen_eq, h.keyAddr_eq, h.counts_eq, h.p_eq⟩

end Sys2Proof.Machine
end

section
/-! PROOFS. The encoder and the decoder on what it encodes (spec/30_encoding.md R68, R76): packing is a number written
in digits, and each field reads its digit back. -/

namespace Sys2Proof.Laws

/-! ## Packing in digits (R68) -/

/-- The packed descriptor as digits: OP in base 2 below the four operands in base `2^ADDR_W`. -/
theorem pack_eq_digits (cfg : Config) (op da dl ka kl : Nat) : pack cfg op da dl ka kl =
    op + 2 * (da + cfg.space * (dl + cfg.space * (ka + cfg.space * kl))) := by
  simp only [pack, Config.space, Nat.pow_succ, Nat.mul_comm _ cfg.addrW, Nat.pow_mul]
  ring

/-- The lowest digit in base `b`. -/
theorem digit_mod {x b : Nat} (h : x < b) (q : Nat) : (x + b * q) % b = x := by
  rw [Nat.add_mul_mod_self_left, Nat.mod_eq_of_lt h]

/-- The digits above the lowest. -/
theorem digit_div {x b : Nat} (h : x < b) (q : Nat) : (x + b * q) / b = q := by
  rw [Nat.add_mul_div_left _ _ (Nat.zero_lt_of_lt h), Nat.div_eq_of_lt h, Nat.zero_add]

/-- An operand field is a digit in base `2^ADDR_W` of the bits above OP. -/
theorem bitField_above_op (cfg : Config) (d i : Nat) :
    bitField d (i * cfg.addrW + 1) cfg.addrW = d / 2 / cfg.space ^ i % cfg.space := by
  rw [bitField, Config.space, ← Nat.pow_mul, Nat.div_div_eq_div_mul, Nat.mul_comm i, Nat.pow_succ']

section
variable {cfg : Config} {op da dl ka kl : Nat}

/-- The fields of a packed descriptor are what was packed, when each operand fits its field. -/
theorem fields_pack (ho : op < 2) (h : OperandsFit cfg da dl ka kl) :
    opField (pack cfg op da dl ka kl) = op ∧ dataAddrField cfg (pack cfg op da dl ka kl) = da
      ∧ dataLenField cfg (pack cfg op da dl ka kl) = dl ∧ keyAddrField cfg (pack cfg op da dl ka kl) = ka
      ∧ keyLenField cfg (pack cfg op da dl ka kl) = kl := by
  obtain ⟨hda, hdl, hka, hkl⟩ := h
  have hfield := bitField_above_op cfg (pack cfg op da dl ka kl)
  rw [pack_eq_digits, digit_div ho] at hfield
  rw [pack_eq_digits]
  refine ⟨?_, ?_, ?_, (hfield 2).trans ?_, (hfield 3).trans ?_⟩
  · rw [opField_eq, digit_mod ho]
  · simpa [dataAddrField, digit_mod hda] using hfield 0
  · simpa [dataLenField, digit_div hda, digit_mod hdl] using hfield 1
  · simp only [Nat.pow_succ', Nat.pow_zero, Nat.mul_one, ← Nat.div_div_eq_div_mul, digit_div hda, digit_div hdl,
      digit_mod hka]
  · simp only [Nat.pow_succ', Nat.pow_zero, Nat.mul_one, ← Nat.div_div_eq_div_mul, digit_div hda, digit_div hdl,
      digit_div hka, Nat.mod_eq_of_lt hkl]

end

theorem encode_lt {cfg : Config} {i : Instr} (h : i.wellFormed cfg = true) : encode cfg i < 2 ^ cfg.descriptorBits := by
  cases i with
  | encrypt da dl ka kl => exact EncodeFits.encrypt da dl ka kl cfg h
  | decrypt da dl ka kl => exact EncodeFits.decrypt da dl ka kl cfg h

/-- Decode after encode, on the packed number. -/
theorem decode_encode {cfg : Config} {i : Instr} (h : i.wellFormed cfg = true) : decode cfg (encode cfg i) = .ok i := by
  have hlt := encode_lt h
  cases i with
  | encrypt da dl ka kl =>
    obtain ⟨hop, hda, hdl, hka, hkl⟩ := fields_pack (op := 0) (by decide) (of_decide_eq_true h)
    rw [encode] at hlt ⊢
    rw [decode_of_op_zero hlt hop, hda, hdl, hka, hkl]
  | decrypt da dl ka kl =>
    obtain ⟨hop, hda, hdl, hka, hkl⟩ := fields_pack (op := 1) (by decide) (of_decide_eq_true h)
    rw [encode] at hlt ⊢
    rw [decode_of_op_one hlt hop, hda, hdl, hka, hkl]

/-! ## The byte form (log 9) -/

theorem bytesOfNumber_length (count d : Nat) : (bytesOfNumber count d).length = count := by
  induction count generalizing d with
  | zero => rfl
  | succ count ih => rw [bytesOfNumber, List.length_cons, ih]

/-- Bytes hold a number that is below 256 to the power of their count. -/
theorem numberOfBytes_bytesOfNumber {count d : Nat} (h : d < 256 ^ count) :
    numberOfBytes (bytesOfNumber count d) = d := by
  induction count generalizing d with
  | zero => exact (Nat.lt_one_iff.mp h).symm
  | succ count ih =>
    have hhigh : d / 256 < 256 ^ count := by rwa [Nat.div_lt_iff_lt_mul (by decide), ← Nat.pow_succ]
    rw [bytesOfNumber, numberOfBytes, ih hhigh, BitVec.toNat_ofNat]
    exact Nat.mod_add_div d 256

/-- A descriptor's bytes hold its bits. -/
theorem two_pow_descriptorBits_le (cfg : Config) : 2 ^ cfg.descriptorBits ≤ 256 ^ cfg.descriptorBytes := by
  rw [show (256 : Nat) = 2 ^ 8 from rfl, ← Nat.pow_mul]
  exact Nat.pow_le_pow_right (by decide) (by rw [Config.descriptorBytes]; omega)

theorem decodeBytes_of_length {cfg : Config} {bs : List Byte} (h : bs.length = cfg.descriptorBytes) :
    decodeBytes cfg bs = decode cfg (numberOfBytes bs) := by
  rw [decodeBytes, if_neg (by omega), if_neg (by omega)]

/-- Decode after encode, on bytes. -/
theorem decodeBytes_encodeBytes {cfg : Config} {i : Instr} (h : i.wellFormed cfg = true) :
    decodeBytes cfg (encodeBytes cfg i) = .ok i := by
  have hfit : encode cfg i < 256 ^ cfg.descriptorBytes := (encode_lt h).trans_le (two_pow_descriptorBits_le cfg)
  rw [encodeBytes, decodeBytes_of_length (bytesOfNumber_length _ _), numberOfBytes_bytesOfNumber hfit, decode_encode h]

/-- Settles O1: a number below `2^(4*ADDR_W + 1)` whose digits are the operands, and the bytes that hold it. -/
theorem decodeInvertsEncode : Obligations.DecodeInvertsEncode := fun _ _ h =>
  ⟨encode_lt h, decode_encode h, decodeBytes_encodeBytes h⟩

/-- What the decoder answers is well formed (R68). -/
theorem wellFormed_of_decode {cfg : Config} {d : Nat} {i : Instr} (h : decode cfg d = .ok i) :
    i.wellFormed cfg = true := by
  rcases lt_or_ge d (2 ^ cfg.descriptorBits) with hd | hd
  · obtain ⟨j, hj, hwf, -⟩ := exists_decode_encode hd
    cases hj.symm.trans h
    exact hwf
  · rw [decode_of_tooWide hd] at h
    cases h

end Sys2Proof.Laws
end

section
/-! PROOFS. The two commands as the host sees them: a step that runs what is presented, acceptance, completion with
every register, and the refusals of regions outside the spec (spec/43_boundary.md, spec/20_memory.md). -/

namespace Sys2Proof.Machine

/-! ## Presentation and acceptance (R129, R130) -/

theorem step_of_nothing_scheduled {s : State} (h : s.turns = []) : step s = engineAlone s := by
  simp only [step, h]

/-- An idle engine left alone runs what is presented. -/
theorem engineAlone_presented {s : State} {d : Nat} {i : Instr} (hs : s.seq = .idle) (hp : s.port = some d)
    (hd : decode s.cfg d = .ok i) : engineAlone s = exec i s := by
  simp only [engineAlone, if_pos hs, hp, hd]

/-- Settles O4: nothing scheduled leaves the engine alone, and `withFetchWord` clears the schedule. -/
theorem stepRunsPresentedCommand : Obligations.StepRunsPresentedCommand :=
  ⟨fun _ _ _ hturns hs hp hd => (step_of_nothing_scheduled hturns).trans (engineAlone_presented hs hp hd),
    fun s nbits w _ hd => (step_of_nothing_scheduled (withFetchWord_turns s nbits w)).trans
      (engineAlone_presented (withFetchWord_seq s nbits w) (withFetchWord_port s nbits w) hd)⟩

/-- Settles O6: the row of R31 from IDLE to CHECK, whose effect is `State.latch` for either command. -/
theorem acceptanceLatchesDescriptor : Obligations.AcceptanceLatchesDescriptor := fun _ _ _ _ _ _ hs hp =>
  ⟨fun hd => ⟨_, seqStep_of_presented hs hp hd, rfl, rfl⟩, fun hd => ⟨_, seqStep_of_presented hs hp hd, rfl, rfl⟩⟩

/-! ## FAULT (R157, R160) -/

theorem engineAlone_of_fault {s : State} (hs : s.seq = .fault) :
    engineAlone s = .fault (.engineStopped s.errCode s.errInfo) := by
  rw [engineAlone, if_neg (by simp [hs]), if_pos hs]

theorem runCommand_of_fault {s : State} (hs : s.seq = .fault) (i : Instr) (count : Nat) :
    runCommand i count s = .fault (.engineStopped s.errCode s.errInfo) := by
  rw [runCommand, if_neg (by simp [hs]), if_pos hs]

/-- Settles O12: the engine left alone and the engine given a command stop alike. -/
theorem faultStopsTheMachine : Obligations.FaultStopsTheMachine := by
  intro s i hs
  refine ⟨fun hturns => (step_of_nothing_scheduled hturns).trans (engineAlone_of_fault hs), ?_⟩
  cases i with
  | encrypt da dl ka kl => exact runCommand_of_fault hs _ _
  | decrypt da dl ka kl => exact runCommand_of_fault hs _ _

/-! ## Completion (R97, R113) -/

section
variable {s t : State} {o : Op} {da dl ka kl last : Nat}

/-- What either command leaves when it completes, as far as the two agree: the latches, the key file, the counts, the
two neighbours as memory holds them, nothing at the port (log 6), and all else as before. -/
structure Completed (o : Op) (da dl ka kl : Nat) (s t : State) : Prop where
  outside : ∀ a, ¬ inRegion da dl a → t.mem.read a = s.mem.read a
  errCode : t.errCode = s.errCode
  errInfo : t.errInfo = s.errInfo
  op : t.op = o
  dataAddr : t.dataAddr = da
  dataLen : t.dataLen = dl
  keyAddr : t.keyAddr = ka
  keyLen : t.keyLen = kl
  key : t.key = s.keyWordsAt ka
  nw : t.nw = wordCount dl
  n : t.n = wordCount dl - 1
  y : t.y = t.mem.readWord s.cfg.byteOrder da
  z : t.z = t.mem.readWord s.cfg.byteOrder (da + dl - 4)
  cfg : t.cfg = s.cfg
  port : t.port = none
  turns : t.turns = s.turns
  free : t.free = s.free

/-- The last data word ends where the data region does. -/
theorem last_dataWordAddr (h : PreconditionsHold da dl ka kl) : da + 4 * (wordCount dl - 1) = da + dl - 4 := by
  have := h.dataLen
  have := h.twoWords
  simp only [wordCount] at *
  omega

theorem SamePass.completed (h : CanRun s da dl ka kl) (hsame : SamePass (s.afterKeyload o da dl ka kl).setCounts t)
    (hended : t.RoundEnded last) : Completed o da dl ka kl s t where
  outside := hsame.outside
  errCode := (congrArg State.errCode hsame.registers :)
  errInfo := (congrArg State.errInfo hsame.registers :)
  op := (congrArg State.op hsame.registers :)
  dataAddr := hsame.dataAddr_eq
  dataLen := hsame.dataLen_eq
  keyAddr := hsame.keyAddr_eq
  keyLen := hsame.keyLen_eq
  key := hsame.key_eq
  nw := (congrArg State.nw hsame.registers :)
  n := hsame.n_eq
  y := by
    rw [hended.y, State.dataWord, State.dataWordAddr, hsame.cfg_eq, hsame.dataAddr_eq]
    rfl
  z := by
    rw [hended.z, State.dataWord, State.dataWordAddr, hsame.cfg_eq, hsame.dataAddr_eq, hsame.n_eq,
      ← last_dataWordAddr h.pre]
    rfl
  cfg := hsame.cfg_eq
  port := (congrArg State.port hsame.registers :)
  turns := (congrArg State.turns hsame.registers :)
  free := (congrArg State.free hsame.registers :)

end

/-- Settles O15: the run of ENCRYPT, whose words the simulation gives and whose registers the pass keeps or sets. -/
theorem encryptCompletes : Obligations.EncryptCompletes := by
  intro s da dl ka kl h
  obtain ⟨t, hrun, hsame, hidle, hrnd, hended, hsum, hwords⟩ := encrypt_run h
  have c := hsame.completed h hended
  exact ⟨t, (exec_encrypt_idle h.idle).trans hrun.runBusy, hwords, c.outside, hidle, c.errCode, c.errInfo, c.op,
    c.dataAddr, c.dataLen, c.keyAddr, c.keyLen, c.key, c.nw, c.n, hended.p, hrnd, hsum, c.y, c.z, c.cfg, c.port,
    c.turns, c.free⟩

/-- Settles O16: the run of DECRYPT, likewise. -/
theorem decryptCompletes : Obligations.DecryptCompletes := by
  intro s da dl ka kl h
  obtain ⟨t, hrun, hsame, hidle, hrnd, hzero, hended, hwords⟩ := decrypt_run h
  have c := hsame.completed h hended
  exact ⟨t, (exec_decrypt_idle h.idle).trans hrun.runBusy, hwords, c.outside, hidle, c.errCode, c.errInfo, c.op,
    c.dataAddr, c.dataLen, c.keyAddr, c.keyLen, c.key, c.nw, c.n, hended.p, hrnd, hzero, c.y, c.z, c.cfg, c.port,
    c.turns, c.free⟩

/-! ## Regions outside the spec (R48, R59) -/

section
variable {s : State} {da dl ka kl : Nat} {q : Refusal}

/-- A validated command whose regions KEYLOAD refuses is refused after CHECK (log 12). -/
theorem runBusy_refused (hp : PreconditionsHold da dl ka kl)
    (hq : ∀ rest, refuseRegions s.cfg da dl ka kl rest = .refused q) (o : Op) (k : Nat) :
    runBusy (k + 2) (s.latch o da dl ka kl) = .refused q := by
  have hcheck := seqStep_of_row (s := s.latch o da dl ka kl) (.valid rfl hp) nofun
  have hkeyload : seqStep ((s.latch o da dl ka kl).goto .keyload) = .refused q := hq _
  rw [runBusy_succ, latch_seq, if_pos (by decide), hcheck, andThen_next, runBusy_succ, goto_seq, if_pos (by decide),
    hkeyload]
  rfl

theorem exec_refused (hs : s.seq = .idle) (hp : PreconditionsHold da dl ka kl)
    (hq : ∀ rest, refuseRegions s.cfg da dl ka kl rest = .refused q) :
    exec (.encrypt da dl ka kl) s = .refused q ∧ exec (.decrypt da dl ka kl) s = .refused q := by
  rw [exec_encrypt_idle hs, exec_decrypt_idle hs, encryptTicks, decryptTicks, Nat.add_comm 4, Nat.add_comm 4]
  exact ⟨runBusy_refused hp hq .encrypt _, runBusy_refused hp hq .decrypt _⟩

end

/-- Settles O10: KEYLOAD names the refusal, and validated regions have bytes to share. -/
theorem regionsOutsideSpecAreRefused : Obligations.RegionsOutsideSpecAreRefused := by
  intro s da dl ka kl hs hp
  refine ⟨fun hwraps => ?_, fun hd hk hlo hhi => ?_⟩
  · exact exec_refused hs hp fun _ => refuseRegions_wraps (hwraps.imp Nat.not_le.mpr Nat.not_le.mpr)
  · have hmeet : regionsMeet da dl ka kl := by
      have := hp.twoWords
      have := hp.keyLen
      simp only [wordCount] at *
      exact ⟨by omega, by omega, hlo, hhi⟩
    exact exec_refused hs hp fun _ => refuseRegions_meet hd hk hmeet

/-! ## What a command may write (R54, R58) -/

/-- Regions outside the spec are refused whatever KEYLOAD would do next (R135). -/
theorem exists_refusal {cfg : Config} {da dl ka kl : Nat} (h : ¬ RegionsInSpec cfg da dl ka kl) :
    ∃ q, ∀ rest, refuseRegions cfg da dl ka kl rest = .refused q := by
  by_cases hd : holdsRegion cfg da dl
  · by_cases hk : holdsRegion cfg ka kl
    · have hmeet : regionsMeet da dl ka kl := by
        by_contra hdisjoint
        exact h ⟨hd, hk, hdisjoint⟩
      exact ⟨_, fun _ => refuseRegions_meet hd hk hmeet⟩
    · exact ⟨_, fun _ => refuseRegions_wraps (.inr hk)⟩
  · exact ⟨_, fun _ => refuseRegions_wraps (.inl hd)⟩

section
variable {s t : State} {da dl ka kl : Nat} {i : Instr}

/-- A command that answers was of no effect, was stopped by CHECK, or had regions in the spec and completed. -/
theorem exec_ends (hi : i = .encrypt da dl ka kl ∨ i = .decrypt da dl ka kl) (h : exec i s = .next t) :
    t = s ∨ (∃ code info, t = (s.accept i).raise code info)
      ∨ RegionsInSpec s.cfg da dl ka kl ∧ t.seq = .idle ∧ ∀ a, ¬ inRegion da dl a → t.mem.read a = s.mem.read a := by
  rcases exec_next h with ⟨hs, -⟩ | ⟨-, rfl⟩
  case inr => exact .inl rfl
  cases hv : firstViolation da dl ka kl with
  | some v =>
    cases h.symm.trans (exec_violation hi hs hv)
    exact .inr (.inl ⟨_, _, rfl⟩)
  | none =>
    have hp := firstViolation_eq_none.mp hv
    by_cases hr : RegionsInSpec s.cfg da dl ka kl
    · have hcan : CanRun s da dl ka kl := ⟨hs, hp, hr⟩
      rcases hi with rfl | rfl
      · obtain ⟨u, hu, htr⟩ := exec_encrypt_transforms hcan
        cases h.symm.trans hu
        exact .inr (.inr ⟨hr, htr.idle, htr.outside⟩)
      · obtain ⟨u, hu, htr⟩ := exec_decrypt_transforms hcan
        cases h.symm.trans hu
        exact .inr (.inr ⟨hr, htr.idle, htr.outside⟩)
    · obtain ⟨q, hq⟩ := exists_refusal hr
      obtain ⟨henc, hdec⟩ := exec_refused hs hp hq
      rcases hi with rfl | rfl
      · cases h.symm.trans henc
      · cases h.symm.trans hdec

/-- What is left of memory by a command that answers. -/
theorem exec_frame (hi : i = .encrypt da dl ka kl ∨ i = .decrypt da dl ka kl) (h : exec i s = .next t) :
    t.mem = s.mem ∨ ¬ regionsMeet da dl ka kl ∧ t.seq ≠ .fault
      ∧ ∀ a, ¬ inRegion da dl a → t.mem.read a = s.mem.read a := by
  rcases exec_ends hi h with rfl | ⟨code, info, rfl⟩ | ⟨hr, hidle, hout⟩
  · exact .inl rfl
  · exact .inl (accept_mem s i)
  · exact .inr ⟨hr.disjoint, by simp [hidle], hout⟩

end

/-- Two regions that do not meet have no byte in common (R59). -/
theorem not_inRegion_of_disjoint {da dl ka kl a : Nat} (h : ¬ regionsMeet da dl ka kl) (ha : inRegion ka kl a) :
    ¬ inRegion da dl a := by
  simp only [regionsMeet, inRegion] at *
  omega

/-- Settles O27: every way for a command to end, the one that writes having regions that do not meet. -/
theorem commandWritesOnlyItsDataRegion : Obligations.CommandWritesOnlyItsDataRegion := by
  intro s t da dl ka kl h
  have hframe : t.mem = s.mem ∨ ¬ regionsMeet da dl ka kl ∧ t.seq ≠ .fault
      ∧ ∀ a, ¬ inRegion da dl a → t.mem.read a = s.mem.read a :=
    h.elim (exec_frame (.inl rfl)) (exec_frame (.inr rfl))
  rcases hframe with hmem | ⟨hdisjoint, hfault, hout⟩
  · exact ⟨fun _ _ => by rw [hmem], fun _ _ _ => by rw [hmem], fun _ => hmem⟩
  · exact ⟨hout, fun a hlo hhi => hout a (not_inRegion_of_disjoint hdisjoint ⟨hlo, hhi⟩), fun hf => absurd hf hfault⟩

end Sys2Proof.Machine
end

section
/-! PROOFS. The functions ENC and DEC on lists of words (spec/41_forward.md, spec/42_inverse.md): what one round leaves
for the other, the lengths, the checksums of the rounds, and the spec's worked values. -/

namespace Sys2Proof.Machine

/-! ## One round and its inverse (R125) -/

/-- Settles O20: with the carried neighbours taken from the list both rounds are sweeps, and the sweeps undo each
other. -/
theorem inverseRoundUndoesForwardRound : Obligations.InverseRoundUndoesForwardRound := by
  intro kxz k n v sum hv hn
  have hlen : (encSweep kxz k n v (sum + delta)).length = n + 1 := (encSweep_length ..).trans hv
  rw [encRound_eq_encSweep kxz k sum hv]
  refine ⟨?_, encSweep_length .., rfl, rfl⟩
  rw [decRound_eq_decSweep kxz k _ hlen, decSweep_encSweep kxz k _ hn hv, BitVec.add_sub_cancel]

/-! ## Lengths (R111)

Every update is a `List.set`, so the lengths agree for any carried words, and for the empty list too. -/

section
variable (kxz : Bool) (k : KeyFile) (n count : Nat) (v : List Word) (z y sum : Word)

theorem encRound_length : (encRound kxz k n v z sum).1.length = v.length := by
  rw [encRound, encMix_length]
  exact List.foldlRecOn (motive := fun c : List Word × Word => c.1.length = v.length) _ _ rfl
    fun c hc p _ => (encMix_length ..).trans hc

theorem encRounds_length : (encRounds kxz k n count v z sum).1.length = v.length := by
  induction count generalizing v z sum with
  | zero => rw [encRounds_zero]
  | succ count ih => rw [encRounds_succ, ih, encRound_length]

theorem decInner_length (p : Nat) : (decInner kxz k sum p v y).1.length = v.length := by
  induction p generalizing v y with
  | zero => rw [decInner_zero]
  | succ p ih => rw [decInner_succ, ih, decMix_length]

theorem decRound_length : (decRound kxz k n v y sum).1.length = v.length := by
  rw [decRound, decMix_length, decInner_length]

theorem decRounds_length : (decRounds kxz k n count v y sum).1.length = v.length := by
  induction count generalizing v y sum with
  | zero => rw [decRounds_zero]
  | succ count ih =>
    by_cases hz : sum = 0
    · rw [hz, decRounds_done]
    · rw [decRounds_succ _ _ _ _ _ _ hz, ih, decRound_length]

end

/-- Settles O23: a transform is its rounds. -/
theorem transformsPreserveLength : Obligations.TransformsPreserveLength := fun _ _ _ =>
  ⟨encRounds_length .., decRounds_length ..⟩

/-! ## Checksums and worked values -/

/-- Settles O33: DELTA has an inverse modulo `2^32`, the checksum grows by DELTA, and the table is closed arithmetic. -/
theorem checksumSchedule : Obligations.ChecksumSchedule :=
  ⟨terminalSum_eq_zero_iff, terminalSum_succ, by decide +kernel⟩

/-- Settles O24: the three transforms are closed arithmetic on words. -/
theorem workedTransforms : Obligations.WorkedTransforms :=
  ⟨by decide +kernel, by decide +kernel, by decide +kernel⟩

/-- Settles O31: five values of the mixer's formula. -/
theorem workedMixes : Obligations.WorkedMixes :=
  ⟨by decide +kernel, by decide +kernel, by decide +kernel, by decide +kernel, by decide +kernel⟩

end Sys2Proof.Machine
end

section
/-! PROOFS. What one step of the sequencer writes (spec/10_state.md R22 to R37, spec/20_memory.md R53): each register
and memory by its writers, and the one word that a mix step stores. -/

namespace Sys2Proof.Machine

/-! ## Writers, register by register

A row that is not named in a proof is no writer and leaves the register as it is. -/

namespace SeqRow
variable {s t : State}

theorem cfg_eq (h : SeqRow s t) : t.cfg = s.cfg := by
  cases h with
  | accept d i => exact accept_cfg s i
  | _ => rfl

theorem turns_eq (h : SeqRow s t) : t.turns = s.turns := by
  cases h with
  | accept d i => exact accept_turns s i
  | _ => rfl

theorem free_eq (h : SeqRow s t) : t.free = s.free := by
  cases h with
  | accept d i => exact accept_free s i
  | _ => rfl

/-- The latches and the port are written by acceptance alone (R36, R130). -/
theorem latches_eq (h : SeqRow s t) (hq : s.seq ≠ .idle) : t.op = s.op ∧ t.dataAddr = s.dataAddr
    ∧ t.dataLen = s.dataLen ∧ t.keyAddr = s.keyAddr ∧ t.keyLen = s.keyLen ∧ t.port = s.port := by
  cases h with
  | accept d i hs => exact absurd hs hq
  | _ => exact ⟨rfl, rfl, rfl, rfl, rfl, rfl⟩

/-- ERR_CODE and ERR_INFO are written by the exception of CHECK alone (R33, R34). -/
theorem err_eq (h : SeqRow s t) (hq : s.seq ≠ .check) : t.errCode = s.errCode ∧ t.errInfo = s.errInfo := by
  cases h with
  | accept d i => exact ⟨accept_errCode s i, accept_errInfo s i⟩
  | violation code info hs => exact absurd hs hq
  | _ => exact ⟨rfl, rfl⟩

/-- The key file is written by KEYLOAD alone (R37). -/
theorem key_eq (h : SeqRow s t) (hq : s.seq ≠ .keyload) : t.key = s.key := by
  cases h with
  | accept d i => exact accept_key s i
  | keyload hs => exact absurd hs hq
  | _ => rfl

/-- NW and N are written by the two INIT steps (R26). -/
theorem counts_eq (h : SeqRow s t) (hf : s.seq ≠ .fInit) (hi : s.seq ≠ .iInit) : t.nw = s.nw ∧ t.n = s.n := by
  cases h with
  | accept d i => exact ⟨accept_nw s i, accept_n s i⟩
  | fInit hs => exact absurd hs hf
  | iInit hs => exact absurd hs hi
  | _ => exact ⟨rfl, rfl⟩

/-- RND is written by the two INIT steps and F_ROUND (R28). -/
theorem rnd_eq (h : SeqRow s t) (hf : s.seq ≠ .fInit) (hr : s.seq ≠ .fRound) (hi : s.seq ≠ .iInit) :
    t.rnd = s.rnd := by
  cases h with
  | accept d i => exact accept_rnd s i
  | fInit hs => exact absurd hs hf
  | fRoundOn hs => exact absurd hs hr
  | iInit hs => exact absurd hs hi
  | _ => rfl

/-- SUM is written by the two INIT steps, F_ROUND and I_NEXT (R22). -/
theorem sum_eq (h : SeqRow s t) (hf : s.seq ≠ .fInit) (hr : s.seq ≠ .fRound) (hi : s.seq ≠ .iInit)
    (hn : s.seq ≠ .iNext) : t.sum = s.sum := by
  cases h with
  | accept d i => exact accept_sum s i
  | fInit hs => exact absurd hs hf
  | fRoundOn hs => exact absurd hs hr
  | iInit hs => exact absurd hs hi
  | iNext hs => exact absurd hs hn
  | _ => rfl

/-- P is written by F_ROUND, F_MIX, I_TEST and I_MIX (R27). -/
theorem p_eq (h : SeqRow s t) (hr : s.seq ≠ .fRound) (hf : s.seq ≠ .fMix) (ht : s.seq ≠ .iTest)
    (hi : s.seq ≠ .iMix) : t.p = s.p := by
  cases h with
  | accept d i => exact accept_p s i
  | fRoundOn hs => exact absurd hs hr
  | fMixOn hs => exact absurd hs hf
  | iTestOn hs => exact absurd hs ht
  | iMixOn hs => exact absurd hs hi
  | _ => rfl

/-- Y is written by the mix steps and I_INIT (R23). -/
theorem y_eq (h : SeqRow s t) (hf : s.seq ≠ .fMix) (hi : s.seq ≠ .iInit) (hm : s.seq ≠ .iMix) : t.y = s.y := by
  cases h with
  | accept d i => exact accept_y s i
  | fMixOn hs | fMixEnd hs => exact absurd hs hf
  | iInit hs => exact absurd hs hi
  | iMixOn hs | iMixEnd hs => exact absurd hs hm
  | _ => rfl

/-- Z is written by the mix steps and F_INIT (R24). -/
theorem z_eq (h : SeqRow s t) (hi : s.seq ≠ .fInit) (hf : s.seq ≠ .fMix) (hm : s.seq ≠ .iMix) : t.z = s.z := by
  cases h with
  | accept d i => exact accept_z s i
  | fInit hs => exact absurd hs hi
  | fMixOn hs | fMixEnd hs => exact absurd hs hf
  | iMixOn hs | iMixEnd hs => exact absurd hs hm
  | _ => rfl

/-- Memory is written by the mix steps (R53). -/
theorem mem_eq (h : SeqRow s t) (hf : s.seq ≠ .fMix) (hm : s.seq ≠ .iMix) : t.mem = s.mem := by
  cases h with
  | accept d i => exact accept_mem s i
  | fMixOn hs | fMixEnd hs => exact absurd hs hf
  | iMixOn hs | iMixEnd hs => exact absurd hs hm
  | _ => rfl

/-- A mix step stores one word, at data word P: the new Z forward and the new Y inverse (R53). -/
theorem mem_of_mix (h : SeqRow s t) (hq : s.seq = .fMix ∨ s.seq = .iMix) :
    portCarries s.cfg (s.dataWordAddr s.p)
      ∧ t.mem = s.mem.writeWord s.cfg.byteOrder (s.dataWordAddr s.p) (if s.seq = .fMix then t.z else t.y) := by
  cases h with
  | fMixOn hs hp hn hc | fMixEnd hs hp hn hc => rw [if_pos hs]; exact ⟨hc, rfl⟩
  | iMixOn hs hp hn hc | iMixEnd hs hp hn hc => rw [if_neg (by simp [hs])]; exact ⟨hc, rfl⟩
  | accept d i hs | rest hs | violation _ _ hs | valid hs | keyload hs | fInit hs | fRoundOn hs | fRoundEnd hs
  | iInit hs | iTestOn hs | iTestEnd hs | iNext hs | stopped hs => simp [hs] at hq

end SeqRow

/-- Settles O42: a step that answers is a row, and each register has its writers. -/
theorem onlyTheListedStepsWrite : Obligations.OnlyTheListedStepsWrite := fun _ _ h =>
  have hrow := seqStep_row h
  ⟨hrow.latches_eq, hrow.err_eq, hrow.key_eq, hrow.counts_eq, hrow.rnd_eq, hrow.sum_eq, hrow.p_eq, hrow.y_eq, hrow.z_eq,
    hrow.mem_eq, hrow.cfg_eq, hrow.turns_eq, hrow.free_eq⟩

/-- Settles O43: the laws of memory for the one word stored. -/
theorem mixStepsStoreOneWord : Obligations.MixStepsStoreOneWord := by
  intro s t h hq
  obtain ⟨-, hmem⟩ := (seqStep_row h).mem_of_mix hq
  rw [hmem]
  exact ⟨fun a ha => read_writeWord_outside ha, readWord_writeWord_same ..⟩

end Sys2Proof.Machine
end

section
/-! PROOFS. The invariants of the machine at every step of either agent, position by position of the table of R31
(spec/10_state.md, spec/20_memory.md, spec/41_forward.md section 4, spec/42_inverse.md section 4). -/

namespace Sys2Proof.Machine

/-! ## Memory in its canonical form, inside the address space (R45) -/

section
variable {s t : State}

/-- Whatever puts in place of memory a canonical one with no new address outside the space keeps it lawful. -/
theorem State.MemoryLawful.of_mem {m : Memory} (h : s.MemoryLawful) (hcfg : t.cfg = s.cfg) (hmem : t.mem = m)
    (hwf : m.wf) (hin : ∀ c ∈ m, c.1 < s.cfg.space ∨ c ∈ s.mem) : t.MemoryLawful := by
  subst hmem
  exact ⟨hwf, fun c hc => hcfg ▸ (hin c hc).elim id (h.inSpace c)⟩

theorem State.MemoryLawful.of_mem_eq (h : s.MemoryLawful) (hcfg : t.cfg = s.cfg) (hmem : t.mem = s.mem) :
    t.MemoryLawful := h.of_mem hcfg hmem h.wf fun _ => .inr

theorem SeqRow.memoryLawful (hrow : SeqRow s t) (h : s.MemoryLawful) : t.MemoryLawful := by
  by_cases hq : s.seq = .fMix ∨ s.seq = .iMix
  · obtain ⟨⟨-, hspace⟩, hmem⟩ := hrow.mem_of_mix hq
    exact h.of_mem hrow.cfg_eq hmem (writeWord_wf h.wf _ _ _)
      fun _ hc => (mem_writeWord hc).imp_left fun hin => hin.2.trans_le hspace
  · obtain ⟨hf, hi⟩ := not_or.mp hq
    exact h.of_mem_eq hrow.cfg_eq (hrow.mem_eq hf hi)

theorem resetBy_memoryLawful (h : s.MemoryLawful) : s.resetBy.MemoryLawful := by
  by_cases hb : s.seq.busy
  · exact h.of_mem rfl (resetBy_mem_of_busy s hb) (scramble_wf h.wf _ _ _) fun _ => mem_scramble
  · exact h.of_mem_eq rfl (resetBy_mem_of_not_busy s hb)

theorem write_memoryLawful (h : s.MemoryLawful) {a : Nat} (ha : a < s.cfg.space) (b : Byte) :
    ({ s with mem := s.mem.write a b } : State).MemoryLawful :=
  h.of_mem rfl rfl (write_wf h.wf a b) fun _ hc => (mem_write hc).imp_left fun he => he.trans_lt ha

end

/-- Settles O46: the engine stores words at carried addresses, the host bytes of the space, and a reset free values in
it. -/
theorem stepKeepsMemoryLawful : Obligations.StepKeepsMemoryLawful := fun _ _ => step_induct
  (hturns := fun _ _ h => ⟨h.wf, h.inSpace⟩)
  (haccept := fun s _ i h _ _ _ => h.of_mem_eq (accept_cfg s i) (accept_mem s i))
  (hstep := fun _ _ h _ ht => (seqStep_row ht).memoryLawful h)
  (hpresent := fun _ _ h _ => ⟨h.wf, h.inSpace⟩)
  (hwithdraw := fun _ h => ⟨h.wf, h.inSpace⟩)
  (hwrite := fun _ _ b h ha _ => write_memoryLawful h ha b)
  (hreset := fun _ => resetBy_memoryLawful)

/-! ## Widths (R26 to R36) -/

/-- A word count fits the `ADDR_W - 2` bits of NW (R26). -/
theorem wordCount_lt {cfg : Config} (hcfg : cfg.WellFormed) {dl : Nat} (h : dl < cfg.space) :
    wordCount dl < 2 ^ (cfg.addrW - 2) := by
  have hspace : cfg.space = 2 ^ (cfg.addrW - 2) * 4 := by
    rw [Config.space, show 4 = 2 ^ 2 from rfl, ← Nat.pow_add, Nat.sub_add_cancel (Nat.le_trans (by decide) hcfg)]
  rw [hspace] at h
  exact Nat.div_lt_of_lt_mul (by rwa [Nat.mul_comm])

/-- A round count fits the 6 bits of RND (R28). -/
theorem roundCount_lt_two_pow_six (nWords : Nat) : roundCount nWords < 2 ^ 6 := by
  have := Nat.div_le_self 52 nWords
  unfold roundCount
  omega

section
variable {s t : State}

/-- A decoded command's operands fit the latches (R36, R68). -/
theorem accept_widthsFit {d : Nat} {i : Instr} (hd : decode s.cfg d = .ok i) (h : s.WidthsFit) :
    (s.accept i).WidthsFit := by
  have hwf := Laws.wellFormed_of_decode hd
  cases i with
  | encrypt da dl ka kl => exact { h with latches := of_decide_eq_true hwf, port := nofun }
  | decrypt da dl ka kl => exact { h with latches := of_decide_eq_true hwf, port := nofun }

theorem SeqRow.widthsFit (hrow : SeqRow s t) (hcfg : s.cfg.WellFormed) (h : s.WidthsFit) : t.WidthsFit := by
  have hnw : wordCount s.dataLen < 2 ^ (s.cfg.addrW - 2) := wordCount_lt hcfg h.latches.2.1
  have hn : wordCount s.dataLen - 1 < 2 ^ (s.cfg.addrW - 2) := Nat.sub_lt_of_lt hnw
  cases hrow with
  | accept d i hs hp hd => exact accept_widthsFit hd h
  | rest | stopped => exact h
  | violation code info hs hv =>
    obtain ⟨hda, hdl, hka, hkl⟩ := h.latches
    refine { h with errInfo := ?_ }
    rcases (firstViolation_code hv).2 with rfl | rfl | rfl | rfl <;> assumption
  | valid | keyload | fRoundEnd | iTestEnd | iNext | fMixEnd | iMixEnd => exact { h with }
  | fInit | iInit => exact { h with nw := hnw, n := hn, rnd := roundCount_lt_two_pow_six _ }
  | fRoundOn => exact { h with p := Nat.two_pow_pos _, rnd := Nat.sub_lt_of_lt h.rnd }
  | fMixOn hs hp => exact { h with p := Nat.lt_of_le_of_lt hp h.n }
  | iTestOn => exact { h with p := h.n }
  | iMixOn => exact { h with p := Nat.sub_lt_of_lt h.p }

/-- After a reset every register is 0. -/
theorem resetBy_widthsFit (s : State) : s.resetBy.WidthsFit where
  latches := ⟨Nat.two_pow_pos _, Nat.two_pow_pos _, Nat.two_pow_pos _, Nat.two_pow_pos _⟩
  nw := Nat.two_pow_pos _
  n := Nat.two_pow_pos _
  p := Nat.two_pow_pos _
  rnd := Nat.two_pow_pos _
  errInfo := Nat.two_pow_pos _
  port := nofun

end

/-- Settles O47, with the legal address width carried along: no step writes the parameters. -/
theorem stepKeepsWidths : Obligations.StepKeepsWidths := by
  intro s t hcfg hs h
  refine (step_induct (P := fun s => s.cfg.WellFormed ∧ s.WidthsFit)
    (hturns := fun s q h => ⟨h.1, { h.2 with }⟩)
    (haccept := fun s d i h _ _ hd => ⟨by rw [accept_cfg]; exact h.1, accept_widthsFit hd h.2⟩)
    (hstep := fun s t h _ ht => ?_)
    (hpresent := fun s d h hd => ⟨h.1, { h.2 with port := fun _ hp => Option.some.inj hp ▸ hd }⟩)
    (hwithdraw := fun s h => ⟨h.1, { h.2 with port := nofun }⟩)
    (hwrite := fun s a b h _ _ => ⟨h.1, { h.2 with }⟩)
    (hreset := fun s h => ⟨h.1, resetBy_widthsFit s⟩) ⟨hcfg, hs⟩ h).2
  have hrow := seqStep_row ht
  exact ⟨hrow.cfg_eq ▸ h.1, hrow.widthsFit h.1 h.2⟩

/-! ## The fault registers (R33, R34, R155) -/

section
variable {s t : State}

theorem firstStep_ne_fault (o : Op) : o.firstStep ≠ .fault := by cases o <;> decide

/-- The one way into FAULT is the exception of CHECK, which records the first violation of the latches. -/
theorem SeqRow.violation_of_fault (hrow : SeqRow s t) (hs : s.seq ≠ .fault) (ht : t.seq = .fault) :
    s.seq = .check ∧ firstViolation t.dataAddr t.dataLen t.keyAddr t.keyLen = some (t.errCode, t.errInfo) := by
  cases hrow with
  | violation code info hc hv => exact ⟨hc, hv⟩
  | accept d i => rw [accept_seq] at ht; cases ht
  | keyload => exact absurd ht (firstStep_ne_fault s.op)
  | rest | stopped => exact absurd ht hs
  | _ => cases ht

theorem SeqRow.err_eq_of_not_fault (hrow : SeqRow s t) (ht : t.seq ≠ .fault) :
    t.errCode = s.errCode ∧ t.errInfo = s.errInfo := by
  cases hrow with
  | violation => exact absurd rfl ht
  | accept d i => exact ⟨accept_errCode s i, accept_errInfo s i⟩
  | _ => exact ⟨rfl, rfl⟩

theorem SeqRow.faultRecorded (hrow : SeqRow s t) (hs : s.seq ≠ .fault) (h : s.FaultRecorded) : t.FaultRecorded where
  noFault ht := by
    obtain ⟨hcode, hinfo⟩ := hrow.err_eq_of_not_fault ht
    rw [hcode, hinfo]
    exact h.noFault hs
  faulted ht := (hrow.violation_of_fault hs ht).2

end

/-- Settles O48: only the exception of CHECK enters FAULT or writes the two registers, only reset leaves it, and the
host's other turns do neither. -/
theorem stepKeepsFaultRecorded : Obligations.StepKeepsFaultRecorded := fun _ _ => step_induct
  (hturns := fun _ _ h => ⟨h.noFault, h.faulted⟩)
  (haccept := fun _ d i h hs hp hd => (SeqRow.accept d i hs hp hd).faultRecorded (by simp [hs]) h)
  (hstep := fun _ _ h hb ht => (seqStep_row ht).faultRecorded hb.2 h)
  (hpresent := fun _ _ h _ => ⟨h.noFault, h.faulted⟩)
  (hwithdraw := fun _ h => ⟨h.noFault, h.faulted⟩)
  (hwrite := fun _ _ _ h _ _ => ⟨h.noFault, h.faulted⟩)
  (hreset := fun _ _ => ⟨fun _ => ⟨rfl, rfl⟩, nofun⟩)

end Sys2Proof.Machine
end

section
/-! PROOFS. What holds of a running command at each position (spec/41_forward.md R106, spec/42_inverse.md R125,
spec/43_boundary.md R134): kept by every step of either agent, and with it the whole invariant. -/

namespace Sys2Proof.Machine

/-! ## Positions -/

theorem validated_of_forward {q : Seq} (h : q.forward) : q.validated := by
  rcases h with rfl | rfl | rfl <;> decide

theorem validated_of_inverse {q : Seq} (h : q.inverse) : q.validated := by
  rcases h with rfl | rfl | rfl | rfl <;> decide

theorem inPass_of_forward {q : Seq} (h : q = .fRound ∨ q = .fMix) : q.inPass := by
  rcases h with rfl | rfl <;> decide

theorem inPass_of_inverse {q : Seq} (h : q = .iTest ∨ q = .iMix ∨ q = .iNext) : q.inPass := by
  rcases h with rfl | rfl | rfl <;> decide

theorem not_inPass_firstStep (o : Op) : ¬ o.firstStep.inPass := by cases o <;> decide

theorem op_of_firstStep_forward {o : Op} (h : o.firstStep.forward) : o = .encrypt := by
  cases o with
  | encrypt => rfl
  | decrypt => exact absurd h (by decide)

theorem op_of_firstStep_inverse {o : Op} (h : o.firstStep.inverse) : o = .decrypt := by
  cases o with
  | encrypt => exact absurd h (by decide)
  | decrypt => rfl

/-! ## Inside a pass -/

/-- What holds at every position of either pass: the premises, the key file as memory holds it (R38), and the counts. -/
structure State.InPass (s : State) : Prop where
  pre : PreconditionsHold s.dataAddr s.dataLen s.keyAddr s.keyLen
  regions : RegionsInSpec s.cfg s.dataAddr s.dataLen s.keyAddr s.keyLen
  keyFile : s.key = s.keyWordsAt s.keyAddr
  counts : s.nw = wordCount s.dataLen ∧ s.n + 1 = s.nw

theorem State.PassLawful.inPass {s : State} (h : s.PassLawful) (hq : s.seq.inPass) : s.InPass :=
  ⟨h.validated hq.1.1, h.regions hq.1, h.keyFile hq.1, h.counts hq⟩

/-- Where key bytes are as before, so are the key words. -/
theorem keyWordsAt_congr {s t : State} {da dl ka kl : Nat} (hp : PreconditionsHold da dl ka kl) (hcfg : t.cfg = s.cfg)
    (h : ∀ a, inRegion ka kl a → t.mem.read a = s.mem.read a) : t.keyWordsAt ka = s.keyWordsAt ka := by
  have hkl := hp.keyLen
  have hword : ∀ i, i ≤ 12 →
      t.mem.readWord s.cfg.byteOrder (ka + i) = s.mem.readWord s.cfg.byteOrder (ka + i) := fun i hi =>
    readWord_congr _ fun a ha => h a (by simp only [inRegion] at *; omega)
  simp only [State.keyWordsAt, hcfg, hword 4 (by decide), hword 8 (by decide), hword 12 (by decide)]
  rw [← Nat.add_zero ka, hword 0 (by decide)]

namespace State.InPass
variable {s t : State}

theorem ready (h : s.InPass) : s.PassReady := ⟨h.pre, h.regions, h.counts.2.trans h.counts.1⟩

/-- A step of a pass keeps it: the key region is disjoint from the data region (R58). -/
theorem of_samePass (h : s.InPass) (hs : SamePass s t) : t.InPass := by
  obtain ⟨hp, hr, -⟩ := h.ready.of_samePass hs
  refine ⟨hp, hr, ?_, ?_⟩
  · rw [hs.key_eq, hs.keyAddr_eq, h.keyFile]
    exact (keyWordsAt_congr h.pre hs.cfg_eq fun a ha =>
      hs.outside a (not_inRegion_of_disjoint h.regions.disjoint ha)).symm
  · rw [hs.registers]; exact h.counts

end State.InPass

/-- Before the INIT step of either pass, the counts are the ones it sets (R101, R117). -/
theorem State.PassLawful.setCounts_inPass {s : State} (h : s.PassLawful) (hq : s.seq.keyed) : s.setCounts.InPass where
  pre := h.validated hq.1
  regions := h.regions hq
  keyFile := h.keyFile hq
  counts := ⟨rfl, (setCounts_passReady (h.validated hq.1) (h.regions hq)).count⟩

/-! ## Three ways to be lawful

Outside a pass, at a forward position and at an inverse one: each asks only for what `State.PassLawful` says there. -/

section
variable {s : State}

theorem passLawful_of_not_inPass (hq : ¬ s.seq.inPass)
    (hv : s.seq.validated → PreconditionsHold s.dataAddr s.dataLen s.keyAddr s.keyLen)
    (hr : s.seq.keyed → RegionsInSpec s.cfg s.dataAddr s.dataLen s.keyAddr s.keyLen)
    (hk : s.seq.keyed → s.key = s.keyWordsAt s.keyAddr) (hf : s.seq.forward → s.op = .encrypt)
    (hi : s.seq.inverse → s.op = .decrypt) : s.PassLawful where
  validated := hv
  regions := hr
  keyFile := hk
  forwardOp := hf
  inverseOp := hi
  counts h := absurd h hq
  position h := by rcases h with h | h | h <;> exact absurd (by rw [h]; decide) hq
  fRound h := absurd (inPass_of_forward (.inl h)) hq
  fMix h := absurd (inPass_of_forward (.inr h)) hq
  iTest h := absurd (inPass_of_inverse (.inl h)) hq
  iMix h := absurd (inPass_of_inverse (.inr (.inl h))) hq
  iNext h := absurd (inPass_of_inverse (.inr (.inr h))) hq

theorem passLawful_of_not_validated (hq : ¬ s.seq.validated) : s.PassLawful :=
  passLawful_of_not_inPass (fun h => hq h.1.1) (fun h => absurd h hq) (fun h => absurd h.1 hq) (fun h => absurd h.1 hq)
    (fun h => absurd (validated_of_forward h) hq) (fun h => absurd (validated_of_inverse h) hq)

theorem passLawful_of_forward (hq : s.seq = .fRound ∨ s.seq = .fMix) (h : s.InPass) (ho : s.op = .encrypt)
    (hp : s.seq = .fMix → s.p ≤ s.n)
    (hround : s.seq = .fRound →
      s.rnd ≤ roundCount s.nw ∧ s.sum = terminalSum (roundCount s.nw - s.rnd) ∧ s.z = s.dataWord s.n)
    (hmix : s.seq = .fMix → s.rnd < roundCount s.nw ∧ s.sum = terminalSum (roundCount s.nw - s.rnd)
      ∧ s.z = s.dataWord (if s.p = 0 then s.n else s.p - 1)) : s.PassLawful where
  validated _ := h.pre
  regions _ := h.regions
  keyFile _ := h.keyFile
  forwardOp _ := ho
  inverseOp hi := by rcases hq with hs | hs <;> simp [hs, Seq.inverse] at hi
  counts _ := h.counts
  position hi := by
    rcases hq with hs | hs
    · simp [hs] at hi
    · exact hp hs
  fRound := hround
  fMix := hmix
  iTest hi := by simp [hi] at hq
  iMix hi := by simp [hi] at hq
  iNext hi := by simp [hi] at hq

theorem passLawful_of_inverse (hq : s.seq = .iTest ∨ s.seq = .iMix ∨ s.seq = .iNext) (h : s.InPass)
    (ho : s.op = .decrypt) (hrnd : s.rnd = roundCount s.nw) (hp : s.seq = .iMix ∨ s.seq = .iNext → s.p ≤ s.n)
    (htest : s.seq = .iTest → (∃ j, j ≤ s.rnd ∧ s.sum = terminalSum j) ∧ s.y = s.dataWord 0)
    (hmix : s.seq = .iMix → (∃ j, 1 ≤ j ∧ j ≤ s.rnd ∧ s.sum = terminalSum j)
      ∧ s.y = s.dataWord (if s.p = s.n then 0 else s.p + 1))
    (hnext : s.seq = .iNext → (∃ j, 1 ≤ j ∧ j ≤ s.rnd ∧ s.sum = terminalSum j) ∧ s.y = s.dataWord 0) :
    s.PassLawful where
  validated _ := h.pre
  regions _ := h.regions
  keyFile _ := h.keyFile
  forwardOp hf := by rcases hq with hs | hs | hs <;> simp [hs, Seq.forward] at hf
  inverseOp _ := ho
  counts _ := h.counts
  position hi := hp (hi.resolve_left fun hf => by simp [hf] at hq)
  fRound hf := by simp [hf] at hq
  fMix hf := by simp [hf] at hq
  iTest hs := ⟨hrnd, htest hs⟩
  iMix hs := ⟨hrnd, hmix hs⟩
  iNext hs := ⟨hrnd, hnext hs⟩

end

/-! ## The steps of the sequencer -/

section
variable {s t : State}

/-- KEYLOAD leaves a lawful first step of either pass (R137). -/
theorem keyload_passLawful (hs : s.seq = .keyload)
    (hr : RegionsInSpec s.cfg s.dataAddr s.dataLen s.keyAddr s.keyLen) (h : s.PassLawful) :
    ({ s with key := s.keyWordsAt s.keyAddr, seq := s.op.firstStep } : State).PassLawful :=
  passLawful_of_not_inPass (not_inPass_firstStep s.op) (fun _ => h.validated (by rw [hs]; decide)) (fun _ => hr)
    (fun _ => rfl) op_of_firstStep_forward op_of_firstStep_inverse

theorem SeqRow.passLawful_forward (hrow : SeqRow s t) (hq : s.seq.forward) (h : s.PassLawful) : t.PassLawful := by
  have ho := h.forwardOp hq
  cases hrow with
  | fInit hs =>
    have hin := (h.setCounts_inPass (by rw [hs]; decide)).of_samePass (t := { s with
      nw := wordCount s.dataLen, n := wordCount s.dataLen - 1, rnd := roundCount (wordCount s.dataLen)
      sum := 0, z := s.dataWord (wordCount s.dataLen - 1), seq := .fRound }) (.of_mem_eq rfl)
    refine passLawful_of_forward (.inl rfl) hin ho nofun (fun _ => ⟨Nat.le_refl _, ?_, rfl⟩) nofun
    rw [Nat.sub_self]
    exact ((terminalSum_eq_zero_iff 0).mpr (Nat.dvd_zero _)).symm
  | fRoundOn hs hr =>
    obtain ⟨hrnd, hsum, hz⟩ := h.fRound hs
    have hin := (h.inPass (by rw [hs]; decide)).of_samePass
      (t := { s with sum := s.sum + delta, rnd := s.rnd - 1, p := 0, seq := .fMix }) (.of_mem_eq rfl)
    refine passLawful_of_forward (.inr rfl) hin ho (fun _ => Nat.zero_le _) nofun fun _ => ⟨?_, ?_, hz⟩
    · exact Nat.lt_of_lt_of_le (Nat.pred_lt hr) hrnd
    · rw [hsum, ← terminalSum_succ]
      exact congrArg terminalSum (show roundCount s.nw - s.rnd + 1 = roundCount s.nw - (s.rnd - 1) by omega)
  | fRoundEnd => exact passLawful_of_not_validated (by rw [goto_seq]; decide)
  | fMixOn hs hp =>
    obtain ⟨hrnd, hsum, -⟩ := h.fMix hs
    have hin := h.inPass (by rw [hs]; decide)
    have hin' := hin.of_samePass (forwardUpdate_samePass hin.ready (Nat.le_of_lt hp) (s.p + 1) (s.p + 1) .fMix)
    exact passLawful_of_forward (.inr rfl) hin' ho (fun _ => hp) nofun fun _ =>
      ⟨hrnd, hsum, (dataWord_forwardUpdate_same s (s.p + 1)).symm⟩
  | fMixEnd hs hp =>
    obtain ⟨hrnd, hsum, -⟩ := h.fMix hs
    have hin := h.inPass (by rw [hs]; decide)
    have hin' := hin.of_samePass (forwardUpdate_samePass hin.ready (Nat.le_of_eq hp) 0 s.p .fRound)
    exact passLawful_of_forward (.inl rfl) hin' ho nofun
      (fun _ => ⟨Nat.le_of_lt hrnd, hsum, (forwardUpdate_roundEnded hin.ready hp).z⟩) nofun
  | accept _ _ hs | rest hs | violation _ _ hs | valid hs | keyload hs | iInit hs | iTestOn hs | iTestEnd hs | iMixOn hs
  | iMixEnd hs | iNext hs | stopped hs => exact absurd (hs ▸ hq) (by decide)

theorem SeqRow.passLawful_inverse (hrow : SeqRow s t) (hq : s.seq.inverse) (h : s.PassLawful) : t.PassLawful := by
  have ho := h.inverseOp hq
  cases hrow with
  | iInit hs =>
    have hin := (h.setCounts_inPass (by rw [hs]; decide)).of_samePass (t := { s with
      nw := wordCount s.dataLen, n := wordCount s.dataLen - 1, rnd := roundCount (wordCount s.dataLen)
      sum := terminalSum (roundCount (wordCount s.dataLen)), y := s.dataWord 0, seq := .iTest }) (.of_mem_eq rfl)
    exact passLawful_of_inverse (.inl rfl) hin ho rfl nofun (fun _ => ⟨⟨_, Nat.le_refl _, rfl⟩, rfl⟩) nofun nofun
  | iTestOn hs hz =>
    obtain ⟨hrnd, ⟨j, hj, hsum⟩, hy⟩ := h.iTest hs
    have hin := (h.inPass (by rw [hs]; decide)).of_samePass (t := { s with p := s.n, seq := .iMix }) (.of_mem_eq rfl)
    have hpos : 1 ≤ j := by
      by_contra h0
      exact hz (hsum.trans ((terminalSum_eq_zero_iff j).mpr (by simp [show j = 0 by omega])))
    exact passLawful_of_inverse (.inr (.inl rfl)) hin ho hrnd (fun _ => Nat.le_refl _) nofun
      (fun _ => ⟨⟨j, hpos, hj, hsum⟩, by rw [if_pos rfl]; exact hy⟩) nofun
  | iTestEnd => exact passLawful_of_not_validated (by rw [goto_seq]; decide)
  | iMixOn hs hp =>
    obtain ⟨hrnd, hsum, -⟩ := h.iMix hs
    have hpn := h.position (.inr (.inl hs))
    have hin := h.inPass (by rw [hs]; decide)
    have hin' := hin.of_samePass (inverseUpdate_samePass hin.ready hpn (s.p - 1) (s.p - 1) .iMix)
    refine passLawful_of_inverse (.inr (.inl rfl)) hin' ho hrnd (fun _ => (Nat.sub_le s.p 1).trans hpn) nofun
      (fun _ => ⟨hsum, ?_⟩) nofun
    change _ = (inverseUpdate s (s.p - 1)).dataWord (if s.p - 1 = s.n then 0 else s.p - 1 + 1)
    rw [if_neg (by omega), Nat.sub_add_cancel hp, dataWord_inverseUpdate_same]
  | iMixEnd hs hp =>
    obtain ⟨hrnd, hsum, -⟩ := h.iMix hs
    have hpn := h.position (.inr (.inl hs))
    have hin := h.inPass (by rw [hs]; decide)
    have hin' := hin.of_samePass (inverseUpdate_samePass hin.ready hpn s.n s.p .iNext)
    exact passLawful_of_inverse (.inr (.inr rfl)) hin' ho hrnd (fun _ => hpn) nofun nofun
      fun _ => ⟨hsum, (inverseUpdate_roundEnded hin.ready hp).y⟩
  | iNext hs =>
    obtain ⟨hrnd, ⟨j, hpos, hj, hsum⟩, hy⟩ := h.iNext hs
    obtain ⟨i, rfl⟩ := Nat.exists_eq_add_of_le' hpos
    have hin := (h.inPass (by rw [hs]; decide)).of_samePass
      (t := { s with sum := s.sum - delta, seq := .iTest }) (.of_mem_eq rfl)
    have hsum' : s.sum - delta = terminalSum i := by rw [hsum, terminalSum_succ, BitVec.add_sub_cancel]
    exact passLawful_of_inverse (.inl rfl) hin ho hrnd nofun
      (fun _ => ⟨⟨i, Nat.le_of_succ_le hj, hsum'⟩, hy⟩) nofun nofun
  | accept _ _ hs | rest hs | violation _ _ hs | valid hs | keyload hs | fInit hs | fRoundOn hs | fRoundEnd hs
  | fMixOn hs | fMixEnd hs | stopped hs => exact absurd (hs ▸ hq) (by decide)

theorem SeqRow.passLawful (hrow : SeqRow s t) (h : s.PassLawful) : t.PassLawful := by
  by_cases hf : s.seq.forward
  · exact hrow.passLawful_forward hf h
  by_cases hi : s.seq.inverse
  · exact hrow.passLawful_inverse hi h
  cases hrow with
  | accept d i => exact passLawful_of_not_validated (by rw [accept_seq]; decide)
  | rest | stopped => exact h
  | violation => exact passLawful_of_not_validated (by rw [raise_seq]; decide)
  | valid hs hv =>
    exact passLawful_of_not_inPass (by rw [goto_seq]; decide) (fun _ => hv) (fun hk => absurd rfl hk.2)
      (fun hk => absurd rfl hk.2) (by simp) (by simp)
  | keyload hs hr => exact keyload_passLawful hs hr h
  | fInit hs | fRoundOn hs | fRoundEnd hs | fMixOn hs | fMixEnd hs => simp [hs] at hf
  | iInit hs | iTestOn hs | iTestEnd hs | iMixOn hs | iMixEnd hs | iNext hs => simp [hs] at hi

end

/-! ## Writes of another agent (R62, R64) -/

section
variable {s : State}

/-- The state after a byte of memory is written from outside the engine. -/
def State.writeByte (s : State) (a : Nat) (b : Byte) : State := { s with mem := s.mem.write a b }

@[simp] theorem writeByte_dataLen (a : Nat) (b : Byte) : (s.writeByte a b).dataLen = s.dataLen := rfl
@[simp] theorem writeByte_keyAddr (a : Nat) (b : Byte) : (s.writeByte a b).keyAddr = s.keyAddr := rfl
@[simp] theorem writeByte_n (a : Nat) (b : Byte) : (s.writeByte a b).n = s.n := rfl
@[simp] theorem writeByte_p (a : Nat) (b : Byte) : (s.writeByte a b).p = s.p := rfl

variable {a : Nat} (b : Byte)

theorem read_writeByte_of_inRegion {base len a' : Nat} (ha : ¬ inRegion base len a) (ha' : inRegion base len a') :
    (s.writeByte a b).mem.read a' = s.mem.read a' :=
  read_write_other (fun h : a' = a => ha (h ▸ ha')) s.mem b

/-- A byte outside the data region belongs to no data word. -/
theorem dataWord_writeByte (ha : ¬ inRegion s.dataAddr s.dataLen a) {q : Nat} (hq : q < wordCount s.dataLen) :
    (s.writeByte a b).dataWord q = s.dataWord q := by
  refine readWord_congr _ fun a' ha' => read_writeByte_of_inRegion b ha ?_
  simp only [State.writeByte, State.dataWordAddr, inRegion, wordCount] at *
  omega

/-- A byte outside the key region belongs to no key word. -/
theorem keyWordsAt_writeByte {da dl kl : Nat} (hp : PreconditionsHold da dl s.keyAddr kl)
    (ha : ¬ inRegion s.keyAddr kl a) : (s.writeByte a b).keyWordsAt s.keyAddr = s.keyWordsAt s.keyAddr :=
  keyWordsAt_congr hp rfl fun _ => read_writeByte_of_inRegion b ha

/-- At every position it speaks of memory by the words of the two regions only. -/
theorem writeByte_passLawful (h : s.PassLawful) (hm : s.mayWrite a) : (s.writeByte a b).PassLawful := by
  have hdata : ∀ q, s.seq.inPass → q ≤ s.n → (s.writeByte a b).dataWord q = s.dataWord q := fun q hq hqn =>
    dataWord_writeByte b (hm hq.1.1.1).1 ((h.inPass hq).ready.lt_wordCount hqn)
  refine { h with
    keyFile := fun hq => ?_
    fRound := fun hs => ?_
    fMix := fun hs => ?_
    iTest := fun hs => ?_
    iMix := fun hs => ?_
    iNext := fun hs => ?_ }
  · exact (h.keyFile hq).trans (keyWordsAt_writeByte b (h.validated hq.1) (hm hq.1.1).2).symm
  · obtain ⟨hrnd, hsum, hz⟩ := h.fRound hs
    exact ⟨hrnd, hsum, hz.trans (hdata _ (inPass_of_forward (.inl hs)) (Nat.le_refl _)).symm⟩
  · obtain ⟨hrnd, hsum, hz⟩ := h.fMix hs
    refine ⟨hrnd, hsum, hz.trans (hdata _ (inPass_of_forward (.inr hs)) ?_).symm⟩
    have := h.position (.inl hs)
    split <;> omega
  · obtain ⟨hrnd, hsum, hy⟩ := h.iTest hs
    exact ⟨hrnd, hsum, hy.trans (hdata _ (inPass_of_inverse (.inl hs)) (Nat.zero_le _)).symm⟩
  · obtain ⟨hrnd, hsum, hy⟩ := h.iMix hs
    refine ⟨hrnd, hsum, hy.trans (hdata _ (inPass_of_inverse (.inr (.inl hs))) ?_).symm⟩
    have := h.position (.inr (.inl hs))
    split <;> omega
  · obtain ⟨hrnd, hsum, hy⟩ := h.iNext hs
    exact ⟨hrnd, hsum, hy.trans (hdata _ (inPass_of_inverse (.inr (.inr hs))) (Nat.zero_le _)).symm⟩

end

/-! ## Every step of the machine -/

/-- Settles O49: the rows of R31 one by one, and of the host's turns the writes outside the regions. -/
theorem stepKeepsPassLawful : Obligations.StepKeepsPassLawful := fun _ _ => step_induct
  (hturns := fun _ _ h => { h with })
  (haccept := fun s _ i _ _ _ _ => passLawful_of_not_validated (by rw [accept_seq]; decide))
  (hstep := fun _ _ h _ ht => (seqStep_row ht).passLawful h)
  (hpresent := fun _ _ h _ => { h with })
  (hwithdraw := fun _ h => { h with })
  (hwrite := fun _ _ b h _ hm => writeByte_passLawful b h hm)
  (hreset := fun s _ => passLawful_of_not_validated (by rw [resetBy_seq]; decide))

/-- No step of either agent writes the parameters (R51). -/
theorem step_cfg_eq {s t : State} (h : step s = .next t) : t.cfg = s.cfg :=
  step_induct (P := fun u => u.cfg = s.cfg) (hturns := fun _ _ h => h)
    (haccept := fun u _ i h _ _ _ => (accept_cfg u i).trans h)
    (hstep := fun _ _ h _ ht => (seqStep_row ht).cfg_eq.trans h) (hpresent := fun _ _ h _ => h)
    (hwithdraw := fun _ h => h) (hwrite := fun _ _ _ h _ _ => h) (hreset := fun _ h => h) rfl h

/-- Settles O50: the four invariants, each kept on its own but for the widths, which need the legal address width. -/
theorem stepKeepsLawful : Obligations.StepKeepsLawful := by
  intro s t h hstep
  have hcfg := step_cfg_eq hstep
  exact ⟨⟨hcfg ▸ h.cfg, stepKeepsWidths s t h.cfg h.widths hstep, stepKeepsMemoryLawful s t h.memory hstep,
    stepKeepsFaultRecorded s t h.faults hstep, stepKeepsPassLawful s t h.pass hstep⟩, hcfg⟩

/-- Settles O45: every register and the memory are empty, and no command runs. -/
theorem resetIsLawful : Obligations.ResetIsLawful where
  cfg := by decide
  widths := resetBy_widthsFit State.reset
  memory := ⟨by decide, by decide⟩
  faults := ⟨fun _ => ⟨rfl, rfl⟩, nofun⟩
  pass := passLawful_of_not_validated (by decide)

/-! ## Two words (R109) -/

section
variable {s t : State}

/-- F_MIX takes as Y the right neighbour of P, the first word being that of the last (R103, R104). -/
theorem SeqRow.y_of_fMix (hrow : SeqRow s t) (hq : s.seq = .fMix) :
    t.y = s.dataWord (if s.p < s.n then s.p + 1 else 0) := by
  cases hrow with
  | fMixOn hs hp => rw [if_pos hp]; rfl
  | fMixEnd hs hp => rw [if_neg (Nat.not_lt.mpr (Nat.le_of_eq hp.symm))]; rfl
  | accept _ _ hs | rest hs | violation _ _ hs | valid hs | keyload hs | fInit hs | fRoundOn hs | fRoundEnd hs
  | iInit hs | iTestOn hs | iTestEnd hs | iMixOn hs | iMixEnd hs | iNext hs | stopped hs =>
    exact absurd (hs.symm.trans hq) (by decide)

/-- I_MIX takes as Z the left neighbour of P, the last word being that of the first (R119, R120). -/
theorem SeqRow.z_of_iMix (hrow : SeqRow s t) (hq : s.seq = .iMix) :
    t.z = s.dataWord (if 0 < s.p then s.p - 1 else s.n) := by
  cases hrow with
  | iMixOn hs hp => rw [if_pos hp]; rfl
  | iMixEnd hs hp => rw [if_neg (Nat.not_lt.mpr (Nat.le_of_eq hp))]; rfl
  | accept _ _ hs | rest hs | violation _ _ hs | valid hs | keyload hs | fInit hs | fRoundOn hs | fRoundEnd hs
  | fMixOn hs | fMixEnd hs | iInit hs | iTestOn hs | iTestEnd hs | iNext hs | stopped hs =>
    exact absurd (hs.symm.trans hq) (by decide)

/-- With 8 bytes of data the last index is 1 (R26). -/
theorem State.InPass.n_eq_one (h : s.InPass) (hlen : s.dataLen = 8) : s.n = 1 := by
  have hcount := h.ready.count
  rw [hlen] at hcount
  exact Nat.succ.inj hcount

end

/-- Settles O44: with indices 0 and 1 only, the neighbour a mix step reads is the word on the other side of P, which the
pass carries. -/
theorem twoWordBufferMixesOneNeighbour : Obligations.TwoWordBufferMixesOneNeighbour := by
  intro s t h hlen hstep
  have hrow := seqStep_row hstep
  refine ⟨fun hs => ?_, fun hs => ?_⟩
  · have hn := (h.inPass (inPass_of_forward (.inr hs))).n_eq_one hlen
    have hp := h.position (.inl hs)
    have hz := (h.fMix hs).2.2
    rw [hrow.y_of_fMix hs, hz]
    refine congrArg s.dataWord ?_
    split <;> split <;> omega
  · have hn := (h.inPass (inPass_of_inverse (.inr (.inl hs)))).n_eq_one hlen
    have hp := h.position (.inr (.inl hs))
    have hy := (h.iMix hs).2.2
    rw [hrow.z_of_iMix hs, hy]
    refine congrArg s.dataWord ?_
    split <;> split <;> omega

/-! ## A running command never stops (R144) -/

section
variable {s : State}

/-- At every position of a running command some row of R31 is taken, KEYLOAD's when the regions are in the spec. -/
theorem State.PassLawful.exists_row (h : s.PassLawful) (hb : s.seq.busy)
    (hk : s.seq = .keyload → RegionsInSpec s.cfg s.dataAddr s.dataLen s.keyAddr s.keyLen) : ∃ t, SeqRow s t := by
  cases hs : s.seq with
  | idle => exact absurd hs hb.1
  | fault => exact absurd hs hb.2
  | check =>
    cases hv : firstViolation s.dataAddr s.dataLen s.keyAddr s.keyLen with
    | some v => exact ⟨_, .violation v.1 v.2 hs hv⟩
    | none => exact ⟨_, .valid hs (firstViolation_eq_none.mp hv)⟩
  | keyload => exact ⟨_, .keyload hs (hk hs)⟩
  | fInit => exact ⟨_, .fInit hs ((h.setCounts_inPass (by rw [hs]; decide)).ready.carries (Nat.le_refl _))⟩
  | fRound =>
    by_cases hr : s.rnd = 0
    · exact ⟨_, .fRoundEnd hs hr⟩
    · exact ⟨_, .fRoundOn hs hr⟩
  | fMix =>
    have hready := (h.inPass (by rw [hs]; decide)).ready
    have hpn := h.position (.inl hs)
    rcases Nat.lt_or_eq_of_le hpn with hp | hp
    · exact ⟨_, .fMixOn hs hp (hready.carries hp) (hready.carries hpn)⟩
    · exact ⟨_, .fMixEnd hs hp (hready.carries (Nat.zero_le _)) (hready.carries hpn)⟩
  | iInit => exact ⟨_, .iInit hs ((h.setCounts_inPass (by rw [hs]; decide)).ready.carries (Nat.zero_le _))⟩
  | iTest =>
    by_cases hz : s.sum = 0
    · exact ⟨_, .iTestEnd hs hz⟩
    · exact ⟨_, .iTestOn hs hz⟩
  | iMix =>
    have hready := (h.inPass (by rw [hs]; decide)).ready
    have hpn := h.position (.inr (.inl hs))
    rcases Nat.eq_zero_or_pos s.p with hp | hp
    · exact ⟨_, .iMixEnd hs hp (hready.carries (Nat.le_refl _)) (hready.carries hpn)⟩
    · exact ⟨_, .iMixOn hs hp (hready.carries ((Nat.sub_le _ _).trans hpn)) (hready.carries hpn)⟩
  | iNext => exact ⟨_, .iNext hs⟩

/-- A row of a lawful state is the sequencer's step. -/
theorem State.PassLawful.seqStep_of_row (h : s.PassLawful) {t : State} (hrow : SeqRow s t) : seqStep s = .next t :=
  Machine.seqStep_of_row hrow fun hk => h.validated (by rw [hk]; decide)

end

/-- Settles O51: the row that is taken, and the one row into FAULT. -/
theorem runningCommandNeverStops : Obligations.RunningCommandNeverStops := by
  intro s h hbusy hk
  have hb := (status_busy_iff _).mp hbusy
  obtain ⟨t, hrow⟩ := h.exists_row hb hk
  exact ⟨t, h.seqStep_of_row hrow, fun ht => (hrow.violation_of_fault hb.2 ht).1⟩

/-! ## A foreign write commutes with a step (R64) -/

section
variable {m : Memory} {a c : Nat}

/-- Canonical memories with the same bytes are equal, so stores at two addresses commute. -/
theorem write_comm (hm : m.wf) (h : a ≠ c) (b d : Byte) : (m.write a b).write c d = (m.write c d).write a b := by
  refine Memory.ext_of_read (write_wf (write_wf hm _ _) _ _) (write_wf (write_wf hm _ _) _ _) fun x => ?_
  simp only [read_write]
  split
  · next hx => rw [if_neg (by omega)]
  · rfl

theorem writeBytes_write_comm (hm : m.wf) {bs : List Byte} (h : ¬ inRegion c bs.length a) (b : Byte) :
    (m.write a b).writeBytes c bs = (m.writeBytes c bs).write a b := by
  induction bs generalizing m c with
  | nil => rfl
  | cons d bs ih =>
    simp only [inRegion, List.length_cons] at h
    rw [Memory.writeBytes, write_comm hm (by omega), ih (write_wf hm _ _) (by simp only [inRegion]; omega),
      Memory.writeBytes]

theorem writeWord_write_comm (hm : m.wf) (h : ¬ inRegion c 4 a) (bo : ByteOrder) (w : Word) (b : Byte) :
    (m.write a b).writeWord bo c w = (m.writeWord bo c w).write a b :=
  writeBytes_write_comm hm (by rwa [bytesOfWord_length]) b

end

section
variable {s t : State} {a : Nat} (b : Byte)

/-- A byte outside the data region is none of a data word's. -/
theorem not_inRegion_dataWordAddr (ha : ¬ inRegion s.dataAddr s.dataLen a) {p : Nat} (hp : p < wordCount s.dataLen) :
    ¬ inRegion (s.dataWordAddr p) 4 a := by
  simp only [State.dataWordAddr, inRegion, wordCount] at *
  omega

section
variable (hm : s.mem.wf) (ha : ¬ inRegion s.dataAddr s.dataLen a) (hp : s.p < wordCount s.dataLen) {q : Nat}
  (hq : q < wordCount s.dataLen)
include hm ha hp hq

theorem forwardUpdate_writeByte : forwardUpdate (s.writeByte a b) q = (forwardUpdate s q).writeByte a b := by
  rw [forwardUpdate, writeByte_p, dataWord_writeByte b ha hp, dataWord_writeByte b ha hq]
  exact congrArg (fun m => { forwardUpdate s q with mem := m })
    (writeWord_write_comm hm (not_inRegion_dataWordAddr ha hp) s.cfg.byteOrder (forwardUpdate s q).z b)

theorem inverseUpdate_writeByte : inverseUpdate (s.writeByte a b) q = (inverseUpdate s q).writeByte a b := by
  rw [inverseUpdate, writeByte_p, dataWord_writeByte b ha hp, dataWord_writeByte b ha hq]
  exact congrArg (fun m => { inverseUpdate s q with mem := m })
    (writeWord_write_comm hm (not_inRegion_dataWordAddr ha hp) s.cfg.byteOrder (inverseUpdate s q).y b)

end

/-- A row of a running command is taken whatever a byte outside the regions is, and leaves it. -/
theorem SeqRow.writeByte (hrow : SeqRow s t) (hb : s.seq.busy) (hm : s.mem.wf) (h : s.PassLawful)
    (ha : s.mayWrite a) : SeqRow (s.writeByte a b) (t.writeByte a b) := by
  obtain ⟨hdata, hkey⟩ := ha hb
  cases hrow with
  | accept d i hs | rest hs => exact absurd hs hb.1
  | stopped hs => exact absurd hs hb.2
  | violation code info hs hv => exact .violation code info hs hv
  | valid hs hv => exact .valid hs hv
  | keyload hs hr =>
    have hwords := keyWordsAt_writeByte b (h.validated (by rw [hs]; decide)) hkey
    have hrow := SeqRow.keyload (s := s.writeByte a b) hs hr
    rwa [writeByte_keyAddr, hwords] at hrow
  | fInit hs hc =>
    have hrow := SeqRow.fInit (s := s.writeByte a b) hs hc
    have hword := dataWord_writeByte b hdata (q := wordCount s.dataLen - 1)
      ((h.setCounts_inPass (by rw [hs]; decide)).ready.lt_wordCount (Nat.le_refl _))
    rwa [writeByte_dataLen, hword] at hrow
  | fRoundOn hs hr => exact .fRoundOn hs hr
  | fRoundEnd hs hr => exact .fRoundEnd hs hr
  | fMixOn hs hp hq hc =>
    have hready := (h.inPass (by rw [hs]; decide)).ready
    have hrow := SeqRow.fMixOn (s := s.writeByte a b) hs hp hq hc
    rwa [writeByte_p, forwardUpdate_writeByte b hm hdata (q := s.p + 1) (hready.lt_wordCount (Nat.le_of_lt hp))
      (hready.lt_wordCount hp)] at hrow
  | fMixEnd hs hp hq hc =>
    have hready := (h.inPass (by rw [hs]; decide)).ready
    have hrow := SeqRow.fMixEnd (s := s.writeByte a b) hs hp hq hc
    rwa [forwardUpdate_writeByte b hm hdata (hready.lt_wordCount (Nat.le_of_eq hp))
      (hready.lt_wordCount (Nat.zero_le _))] at hrow
  | iInit hs hc =>
    have hrow := SeqRow.iInit (s := s.writeByte a b) hs hc
    have hword := dataWord_writeByte b hdata
      ((h.setCounts_inPass (by rw [hs]; decide)).ready.lt_wordCount (Nat.zero_le _))
    rwa [hword] at hrow
  | iTestOn hs hz => exact .iTestOn hs hz
  | iTestEnd hs hz => exact .iTestEnd hs hz
  | iMixOn hs hp hq hc =>
    have hready := (h.inPass (by rw [hs]; decide)).ready
    have hpn := h.position (.inr (.inl hs))
    have hrow := SeqRow.iMixOn (s := s.writeByte a b) hs hp hq hc
    rwa [writeByte_p, inverseUpdate_writeByte b hm hdata (q := s.p - 1) (hready.lt_wordCount hpn)
      (hready.lt_wordCount ((Nat.sub_le _ _).trans hpn))] at hrow
  | iMixEnd hs hp hq hc =>
    have hready := (h.inPass (by rw [hs]; decide)).ready
    have hrow := SeqRow.iMixEnd (s := s.writeByte a b) hs hp hq hc
    rwa [writeByte_n, inverseUpdate_writeByte b hm hdata (hready.lt_wordCount (h.position (.inr (.inl hs))))
      (hready.lt_wordCount (Nat.le_refl _))] at hrow
  | iNext hs => exact .iNext hs

end

/-- KEYLOAD refuses regions outside the spec whatever memory holds. -/
theorem seqStep_keyload_refused {s : State} (hs : s.seq = .keyload)
    (hr : ¬ RegionsInSpec s.cfg s.dataAddr s.dataLen s.keyAddr s.keyLen) :
    ∃ q, ∀ m, seqStep { s with mem := m } = .refused q := by
  obtain ⟨q, hq⟩ := exists_refusal hr
  refine ⟨q, fun m => ?_⟩
  simp only [seqStep, hs]
  exact hq _

/-- Settles O52: both sides are refused alike, or both take the same row. -/
theorem foreignWriteCommutesWithStep : Obligations.ForeignWriteCommutesWithStep := by
  intro s a b hmem h hbusy hdata hkey
  have hb := (status_busy_iff _).mp hbusy
  have ha : s.mayWrite a := fun _ => ⟨hdata, hkey⟩
  by_cases hk : s.seq = .keyload → RegionsInSpec s.cfg s.dataAddr s.dataLen s.keyAddr s.keyLen
  · obtain ⟨t, hrow⟩ := h.exists_row hb hk
    rw [h.seqStep_of_row hrow]
    exact (writeByte_passLawful b h ha).seqStep_of_row (hrow.writeByte b hb hmem.wf h ha)
  · obtain ⟨hs, hr⟩ := Classical.not_imp.mp hk
    obtain ⟨q, hq⟩ := seqStep_keyload_refused hs hr
    rw [hq, show seqStep s = .refused q from hq s.mem]
    rfl

/-! ## The host while a command runs (R57, R62) -/

section
variable {s done : State} {a : Nat} {allowed : Prop} [Decidable allowed]

theorem hostAccess_allowed (ha : a < s.cfg.space) (h : allowed) : hostAccess s a allowed done = .next done := by
  rw [hostAccess, if_neg (Nat.not_le.mpr ha), if_neg (not_not.mpr h)]

theorem hostAccess_refused (ha : a < s.cfg.space) (h : ¬ allowed) :
    hostAccess s a allowed done = .refused .regionInUse := by
  rw [hostAccess, if_neg (Nat.not_le.mpr ha), if_pos h]

end

/-- Settles O53: an access is refused when the region it touches is in use, and is its one effect otherwise. -/
theorem hostAccessWhileRunning : Obligations.HostAccessWhileRunning := by
  intro s rest a b hbusy ha
  have hb := (status_busy_iff _).mp hbusy
  refine ⟨fun ht hin => ?_, fun ht hin => ?_, fun ht hout => ?_, fun ht hd hk => ?_⟩
  · rw [step_of_turn ht]
    exact hostAccess_refused ha fun hm => hin.elim (hm hb).1 (hm hb).2
  · rw [step_of_turn ht]
    exact hostAccess_refused ha fun hm => hm hb hin
  · rw [step_of_turn ht]
    exact hostAccess_allowed ha fun _ => hout
  · rw [step_of_turn ht]
    exact ⟨_, hostAccess_allowed ha fun _ => ⟨hd, hk⟩, read_write_same .., fun _ h => read_write_other h s.mem b, rfl⟩

end Sys2Proof.Machine
end
